-- ==== Sys2Proof/Word.lean ====
section
/-!
DEFINITION. The words of the GAR image codec block: bytes, header fields, operand registers (00_scope.md R6).
-/

namespace Sys2Proof

/-- A `u8`: one byte of a buffer, a stream or a header. -/
abbrev Byte := BitVec 8

/-- A 16-bit header field; its value as an `i16` is `BitVec.toInt`. -/
abbrev Half := BitVec 16

/-- A 32-bit register or a Color; its value as an `i32` is `BitVec.toInt`, as a `u32` `BitVec.toNat`. -/
abbrev Word := BitVec 32

end Sys2Proof
end

