-- ==== Sys2Proof/Syntax.lean ====
section
/-!
DEFINITION. The instructions: one constructor per row of spec/opcode_table.json. Seven commands of the command port
(30_encoding.md R71, R72), the two chunk kinds of an RLE stream (R65 to R67) and the four data-type codes of header
byte 2 (R59).
-/

namespace Sys2Proof

/-- One instruction. A command carries its operand registers as R72 places them; a signed operand is the register's
32 bits, read as two's complement where it is used. -/
inductive Instr where
  /-- NEW: `width` = ARG0 (i32), `height` = ARG1 (i32), `format` = ARG2 (u32, the whole register). R81. -/
  | new (width height format : Word)
  /-- GET: `x` = ARG0, `y` = ARG1, both i32. R91. -/
  | get (x y : Word)
  /-- SET: `x` = ARG0, `y` = ARG1 (i32), `color` = ARG2 (u32, format COLOR). R92. -/
  | set (x y color : Word)
  /-- CLEAR: no operand. R93. -/
  | clear
  /-- FLIP: no operand. R94. -/
  | flip
  /-- ENCODE: `rle` is ARG0 ≠ 0. R106. -/
  | encode (rle : Bool)
  /-- DECODE: no register operand. R130. -/
  | decode
  /-- LIT: a literal run of `n` pixels, `n` = C + 1, 1 to 128. R66, R143. -/
  | lit (n : Nat)
  /-- REP: one pixel repeated `n` times, `n` = C + 1, 1 to 128. R67, R144. -/
  | rep (n : Nat)
  /-- DT_RAW_COLOR: data-type code 2, raw payload. R138, R139. -/
  | dtRawColor
  /-- DT_RAW_GRAY: data-type code 3, raw payload. R138, R139. -/
  | dtRawGray
  /-- DT_RLE_COLOR: data-type code 10, RLE payload. R138, R140. -/
  | dtRleColor
  /-- DT_RLE_GRAY: data-type code 11, RLE payload. R138, R140. -/
  | dtRleGray
deriving DecidableEq, Repr

end Sys2Proof
end

