-- ==== Sys2Proof/WellFormed.lean ====
section
/-!
DEFINITION. The instructions that have an encoding: a chunk holds 1 to 128 pixels (30_encoding.md R65). Every value of
an operand register is an operand (R72), so the other instructions need no check.
-/

namespace Sys2Proof

/-- The pixel count a chunk header can say: `n` = C + 1 with seven bits of C (R65). -/
abbrev ChunkCount (n : Nat) : Prop := 1 ≤ n ∧ n ≤ 128

/-- The instruction has an encoding. -/
def Instr.wellFormed : Instr → Bool
  | .new _ _ _ => true
  | .get _ _ => true
  | .set _ _ _ => true
  | .clear => true
  | .flip => true
  | .encode _ => true
  | .decode => true
  | .lit n => decide (ChunkCount n)
  | .rep n => decide (ChunkCount n)
  | .dtRawColor => true
  | .dtRawGray => true
  | .dtRleColor => true
  | .dtRleGray => true

end Sys2Proof
end

