-- ==== Sys2Proof/Decode.lean ====
section
/-!
DEFINITION. The decoder and the encoder of the three places an instruction's byte is read from: the `CMD` port with
its operand registers (30_encoding.md R70 to R73), a chunk header byte of a stream (R65 to R67), header byte 2 of a
file (R59). Each place has its own code space; spec/opcode_table.json's column "format" names it.
-/

namespace Sys2Proof

/-- Where an instruction's byte is read (the table's column "format": CMD, CHUNK, DTC). -/
inductive Place where
  | command
  | chunk
  | dataType
deriving DecidableEq, Repr

/-- An encoded instruction, as the block finds it. -/
inductive Encoded where
  /-- The `CMD` register and the operand registers, at issue (R70, R72). -/
  | command (code : Byte) (arg0 arg1 arg2 : Word)
  /-- A chunk header byte (R65). -/
  | chunk (header : Byte)
  /-- The data-type code of a file header (R59). -/
  | dataType (code : Byte)
deriving DecidableEq, Repr

/-- Why a byte is no instruction. -/
inductive DecodeError where
  /-- Command codes 0x00 and 0x08 to 0xFF (R73). -/
  | illegalCommand (code : Byte)
  /-- Data-type codes other than 2, 3, 10 and 11 (R59). -/
  | unsupportedDataType (code : Byte)
deriving DecidableEq, Repr

/-- An instruction, or the reason there is none. -/
inductive Decoded where
  | instr (i : Instr)
  | reject (e : DecodeError)
deriving DecidableEq, Repr

/-- The command port: R71's codes, R72's operands. -/
def decodeCommand (code : Byte) (arg0 arg1 arg2 : Word) : Decoded :=
  if code = 0x01#8 then .instr (.new arg0 arg1 arg2)
  else if code = 0x02#8 then .instr (.get arg0 arg1)
  else if code = 0x03#8 then .instr (.set arg0 arg1 arg2)
  else if code = 0x04#8 then .instr .clear
  else if code = 0x05#8 then .instr .flip
  else if code = 0x06#8 then .instr (.encode (decide (arg0 ≠ 0#32)))
  else if code = 0x07#8 then .instr .decode
  else .reject (.illegalCommand code)

/-- A chunk header byte: bit 7 is the type, bits 6:0 the count minus one (R65, R141). Every byte is legal. -/
def decodeChunk (header : Byte) : Instr :=
  let n := (header.extractLsb' 0 7).toNat + 1
  if header.getLsbD 7 then .rep n else .lit n

/-- The data-type code of a header (R59). -/
def decodeDataType (code : Byte) : Decoded :=
  if code = 0x02#8 then .instr .dtRawColor
  else if code = 0x03#8 then .instr .dtRawGray
  else if code = 0x0A#8 then .instr .dtRleColor
  else if code = 0x0B#8 then .instr .dtRleGray
  else .reject (.unsupportedDataType code)

/-- The decoder, total on everything the block can read. -/
def decode : Encoded → Decoded
  | .command code arg0 arg1 arg2 => decodeCommand code arg0 arg1 arg2
  | .chunk header => .instr (decodeChunk header)
  | .dataType code => decodeDataType code

/-- The encoder. A command leaves the operand registers it does not name at 0; `rle` is written as 1 or 0
(DESIGN CHOICE, log 8: any non-zero ARG0 means true, R72). Safe. -/
def encode : Instr → Encoded
  | .new width height format => .command 0x01#8 width height format
  | .get x y => .command 0x02#8 x y 0#32
  | .set x y color => .command 0x03#8 x y color
  | .clear => .command 0x04#8 0#32 0#32 0#32
  | .flip => .command 0x05#8 0#32 0#32 0#32
  | .encode rle => .command 0x06#8 (if rle then 1#32 else 0#32) 0#32 0#32
  | .decode => .command 0x07#8 0#32 0#32 0#32
  | .lit n => .chunk (BitVec.ofNat 8 (n - 1))
  | .rep n => .chunk (BitVec.ofNat 8 (128 + (n - 1)))
  | .dtRawColor => .dataType 0x02#8
  | .dtRawGray => .dataType 0x03#8
  | .dtRleColor => .dataType 0x0A#8
  | .dtRleGray => .dataType 0x0B#8

/-- The byte of an encoded instruction that spec/opcode_table.json's match and mask speak of. -/
def codeByte : Encoded → Byte
  | .command code _ _ _ => code
  | .chunk header => header
  | .dataType code => code

/-- The place an encoded instruction is read from. -/
def placeOf : Encoded → Place
  | .command _ _ _ _ => .command
  | .chunk _ => .chunk
  | .dataType _ => .dataType

/-- One row of spec/opcode_table.json. -/
structure Row where
  mnemonic : String
  place : Place
  pattern : Byte
  mask : Byte
deriving DecidableEq, Repr

/-- spec/opcode_table.json, row by row. -/
def opcodeTable : List Row := [
  ⟨"NEW", .command, 0x01#8, 0xFF#8⟩,
  ⟨"GET", .command, 0x02#8, 0xFF#8⟩,
  ⟨"SET", .command, 0x03#8, 0xFF#8⟩,
  ⟨"CLEAR", .command, 0x04#8, 0xFF#8⟩,
  ⟨"FLIP", .command, 0x05#8, 0xFF#8⟩,
  ⟨"ENCODE", .command, 0x06#8, 0xFF#8⟩,
  ⟨"DECODE", .command, 0x07#8, 0xFF#8⟩,
  ⟨"LIT", .chunk, 0x00#8, 0x80#8⟩,
  ⟨"REP", .chunk, 0x80#8, 0x80#8⟩,
  ⟨"DT_RAW_COLOR", .dataType, 0x02#8, 0xFF#8⟩,
  ⟨"DT_RAW_GRAY", .dataType, 0x03#8, 0xFF#8⟩,
  ⟨"DT_RLE_COLOR", .dataType, 0x0A#8, 0xFF#8⟩,
  ⟨"DT_RLE_GRAY", .dataType, 0x0B#8, 0xFF#8⟩]

/-- The row's pattern holds of the byte read in the row's place. -/
def Row.admits (r : Row) (place : Place) (b : Byte) : Bool := r.place = place && (b &&& r.mask) = r.pattern

/-- The table's name of an instruction. -/
def mnemonicOf : Instr → String
  | .new _ _ _ => "NEW"
  | .get _ _ => "GET"
  | .set _ _ _ => "SET"
  | .clear => "CLEAR"
  | .flip => "FLIP"
  | .encode _ => "ENCODE"
  | .decode => "DECODE"
  | .lit _ => "LIT"
  | .rep _ => "REP"
  | .dtRawColor => "DT_RAW_COLOR"
  | .dtRawGray => "DT_RAW_GRAY"
  | .dtRleColor => "DT_RLE_COLOR"
  | .dtRleGray => "DT_RLE_GRAY"

/-- R68: how many bytes a chunk occupies, from its header byte and the image's bytes per pixel. -/
def chunkSize (bpp : Nat) (header : Byte) : Nat :=
  if header.toNat < 128 then 1 + (header.toNat + 1) * bpp else 1 + bpp

/-- R78: the assembler's pseudo-instructions `ENCODE` (no operand), `ENCODE.RLE` and `ENCODE.RAW`. -/
inductive Pseudo where
  | encodeDefault
  | encodeRle
  | encodeRaw
deriving DecidableEq, Repr

/-- R78: what each pseudo-instruction expands to. -/
def expandPseudo : Pseudo → Instr
  | .encodeDefault => .encode true
  | .encodeRle => .encode true
  | .encodeRaw => .encode false

/-- Which place a byte of spec/opcode_table.json is taken to be read from when only its bits are given. The three code
spaces overlap; DESIGN CHOICE (log 8): a byte that some row fixes whole is read at the command port if a command has
it, else as a data-type code; every other byte is a chunk header. The machine itself never guesses: it decodes the
byte of the place it reads. Safe. -/
def tablePlace (b : Byte) : Place :=
  if opcodeTable.any (fun r => r.admits .command b) then .command
  else if opcodeTable.any (fun r => r.admits .dataType b) then .dataType
  else .chunk

/-- The encoded instruction whose bits are `w`: the byte first, then, for a command, `ARG0`, `ARG1` and `ARG2`, 32 bits
each (log 8). The table gives every row 8 bits, so its operands are 0. -/
def tableWord (nbits w : Nat) : Encoded :=
  let v := w % 2 ^ nbits
  let b := BitVec.ofNat 8 v
  match tablePlace b with
  | .command => .command b (BitVec.ofNat 32 (v / 2 ^ 8)) (BitVec.ofNat 32 (v / 2 ^ 40)) (BitVec.ofNat 32 (v / 2 ^ 72))
  | .chunk => .chunk b
  | .dataType => .dataType b

/-- The instruction the decoder reads from an instruction whose bits are `w`, numbered as spec/opcode_table.json
numbers them. -/
def decodeTableWord (nbits w : Nat) : Option Instr :=
  match decode (tableWord nbits w) with
  | .instr i => some i
  | .reject _ => none

end Sys2Proof
end

