-- ==== Sys2Proof/Config.lean ====
section
/-!
DEFINITION. What one instance of the block fixes (`BUF_CAP`, 00_scope.md R7, 10_state.md R34) and the free
values: the values the spec leaves unspecified (93_implementation_defined.md U1 to U3), each a constant with no
body, applied to the draw counter of the state.
-/

namespace Sys2Proof

/-- The configuration record of R7. No command reads it as a register and no step changes it (R34).
DESIGN CHOICE (log 2): it travels in the state, so that every statement quantifies over it. Safe. -/
structure Config where
  /-- `BUF_CAP`: capacity of the pixel buffer memory in bytes. -/
  bufCap : Nat
deriving DecidableEq, Repr

/-- R7's constraint on the parameter: 1 ≤ `BUF_CAP` ≤ 2^31 − 1. -/
abbrev Config.Ok (c : Config) : Prop := 1 ≤ c.bufCap ∧ c.bufCap ≤ 2147483647

/-- `WIDTH` where the spec leaves it unspecified (R150, R181; logs 5 and 6). Safe. -/
opaque Config.freeWidth : Nat → Word
/-- `HEIGHT` where the spec leaves it unspecified (R150, R181; logs 5 and 6). Safe. -/
opaque Config.freeHeight : Nat → Word
/-- `FORMAT` where the spec leaves it unspecified (R150, R181; logs 5 and 6). Safe. -/
opaque Config.freeFormat : Nat → Byte
/-- The bytes of `BUF`, any number of them, where the spec leaves them unspecified (R150, R181; logs 5 and 6). Safe. -/
opaque Config.freeBuf : Nat → List Byte
/-- `RESULT` after a GET that failed (R22, R166; log 4) and after a reset (R181; log 6). Safe. -/
opaque Config.freeResult : Nat → Word
/-- `CMD` after a reset by the host (R181; log 6). Safe. -/
opaque Config.freeCmd : Nat → Byte
/-- `ARG0` after a reset by the host (R181; log 6). Safe. -/
opaque Config.freeArg0 : Nat → Word
/-- `ARG1` after a reset by the host (R181; log 6). Safe. -/
opaque Config.freeArg1 : Nat → Word
/-- `ARG2` after a reset by the host (R181; log 6). Safe. -/
opaque Config.freeArg2 : Nat → Word

end Sys2Proof
end

