-- ==== Sys2Proof/Machine/State.lean ====
section
/-!
DEFINITION. The state of the block: R14's table, the streams and locals of the command being executed (10_state.md R27
to R31), the instance's parameter (R34), and two fields of the model's own (the host's pending moves, the draw counter).
Faults, refusals, and the state right after reset (R32, 70_reset_and_hazards.md R181).
-/

namespace Sys2Proof.Machine

open Sys2Proof

/-- `BUF`: the bytes of the pixel buffer by offset, as (offset, byte) pairs, offsets rising, no pair with the byte an
unlisted offset reads as (0x00, log 10). -/
abbrev Memory := List Host.Cell

/-- The eleven values of `STATUS` (60_exceptions.md R158; 93 U12: 11 to 255 are never produced). -/
inductive Status where
  | ok
  | invalidDimensions
  | outOfBounds
  | unsupportedFormat
  | unsupportedDataType
  | overrunError
  | ioError
  | dimensionOverflow
  | noImage
  | capacityExceeded
  | illegalCommand
deriving DecidableEq, Repr

/-- The 18-byte header of a file, one field per row of R58; the six 16-bit fields are `i16` (`BitVec.toInt`). -/
structure Header where
  idLength : Byte
  colorMapType : Byte
  dataType : Byte
  colorMapOrigin : Half
  colorMapLength : Half
  colorMapDepth : Byte
  originX : Half
  originY : Half
  width : Half
  height : Half
  bitsPerPixel : Byte
  descriptor : Byte
deriving DecidableEq, Repr

/-- How far a DECODE has come in R130. -/
inductive Phase where
  /-- The dispatch on the data-type code comes next (R138). -/
  | dataType
  /-- The loop over chunks of R140. -/
  | chunks
  /-- The payload is in the buffer; the flip and the commit come next (R148, R149). -/
  | finished
deriving DecidableEq, Repr

/-- The local variables of a DECODE in progress (R30, R31): created when it starts, gone when it ends. -/
structure Transfer where
  header : Header
  /-- `pos`: the stream cursor (R39). -/
  pos : Nat
  /-- `count`: pixels decoded so far (R140). -/
  count : Nat
  phase : Phase
deriving DecidableEq, Repr

/-- One move of the host, made between commands (R23, R178). -/
inductive HostMove where
  | writeArg0 (v : Word)
  | writeArg1 (v : Word)
  | writeArg2 (v : Word)
  /-- The write to `CMD` that issues a command (R19), with the input stream and the `io_fail` the environment supplies
  for that command (R27, R29). -/
  | issue (code : Byte) (file : List Byte) (ioFail : Bool)
  /-- Removes `n` elements from the front of `OUT` (R28). -/
  | drain (n : Nat)
  /-- A reset between commands (R178, R181). -/
  | reset
deriving DecidableEq, Repr

/-- The whole state. -/
structure State where
  /-- The instance's parameters (R7, R34). -/
  cfg : Config
  /-- `VALID` (R15). -/
  valid : Bool
  /-- `WIDTH`, an i32 (R16). -/
  width : Word
  /-- `HEIGHT`, an i32 (R16). -/
  height : Word
  /-- `FORMAT`, a u8 (R16, R55). -/
  format : Byte
  /-- `BUF` (R17, R36). -/
  buf : Memory
  /-- `CMD` (R19). -/
  cmd : Byte
  /-- `ARG0` (R20). -/
  arg0 : Word
  /-- `ARG1` (R20). -/
  arg1 : Word
  /-- `ARG2` (R20). -/
  arg2 : Word
  /-- `STATUS` (R21). -/
  status : Status
  /-- `RESULT` (R22). -/
  result : Word
  /-- `OUT`, oldest file first (R28). -/
  out : List (List Byte)
  /-- `file`: the input stream of the command being executed (R27). -/
  file : List Byte
  /-- `io_fail` of the command being executed (R29). -/
  ioFail : Bool
  /-- The DECODE in progress, if any (R30, R31; log 7). -/
  transfer : Option Transfer
  /-- The host's pending moves, oldest first: the model's own field (log 1). -/
  script : List HostMove
  /-- The index of the next free value: the model's own field (log 12). -/
  draws : Nat
deriving DecidableEq, Repr

/-- Why the machine stops. The spec has no machine fault (93, part 1): every abnormal case of a command is a status. -/
inductive Fault where
  /-- Raised by LIT, REP and the four data-type codes where no DECODE is in progress: there is no stream to read and no
  count to advance (R39: "used only inside DECODE"). No step of the machine reaches it (log 11). Safe. -/
  | noTransfer
deriving DecidableEq, Repr

/-- Why an instruction has no meaning. -/
inductive Refusal where
  /-- Raised by no arm: every instruction of spec/opcode_table.json has its meaning. Safe. -/
  | notModelled (mnemonic : String)
deriving DecidableEq, Repr

/-- What a step and a meaning answer. -/
abbrev Outcome := Host.Outcome State Fault Refusal

/-- Right after reset (R32, R181): `VALID` = 0, `STATUS` = `OK`, `OUT` empty. The spec gives the other registers no
value; DESIGN CHOICE (log 3): zero, and no byte of `BUF` listed. `BUF_CAP` is the value the spec's vectors take
(DESIGN CHOICE, log 2). No host move is pending (log 1). Unsafe: see log 3. -/
def State.reset : State where
  cfg := { bufCap := 2147483647 }
  valid := false
  width := 0#32
  height := 0#32
  format := 0#8
  buf := []
  cmd := 0#8
  arg0 := 0#32
  arg1 := 0#32
  arg2 := 0#32
  status := .ok
  result := 0#32
  out := []
  file := []
  ioFail := false
  transfer := none
  script := []
  draws := 0

end Sys2Proof.Machine
end

