-- ==== Sys2Proof/Machine/Operands.lean ====
section
/-!
DEFINITION. The operand forms and the derived values: the constants of 00_scope.md R5, the geometry (bytes per row,
length, pixel count: 40_image_buffer.md R84, 10_state.md R26), the row-major indexer (R85, R86), the byte order of
16-bit fields and Colors (20_memory.md R41, R42). All arithmetic is over unbounded numbers (R8, R97).
-/

namespace Sys2Proof.Machine

open Sys2Proof

/-- `HDR_LEN` (R5). -/
def hdrLen : Nat := 18
/-- `MAX_CHUNK` (R5). -/
def maxChunk : Nat := 128
/-- `DIM_MAX_ENC` (R5). -/
def dimMaxEnc : Int := 32767
/-- `FILL`: the channel a format does not store, on pixel read (R5, R88). -/
def fill : Byte := 0xFF#8
/-- `TOPLEFT`: the descriptor's origin bit (R5, R61). -/
def topLeft : Byte := 0x20#8
/-- `ALPHA8`: the descriptor's alpha bit (R5, R61). -/
def alpha8 : Byte := 0x08#8
/-- What a byte of `BUF` that nothing has written reads as. DESIGN CHOICE (log 10). Unsafe: a proof could lean on it. -/
def unlisted : Byte := 0x00#8

/-- A format code names a pixel format: 1 Grayscale, 3 BGR, 4 BGRA (R55). -/
abbrev FormatCode (f : Nat) : Prop := f = 1 ∨ f = 3 ∨ f = 4

/-- `bpp`: the bytes of a pixel, `FORMAT` read as a number (R55, R82). -/
def bpp (s : State) : Nat := s.format.toNat

/-- `WIDTH` as a number of pixels. It is positive whenever a command uses it (R16); log 16 for the rest. -/
def widthN (s : State) : Nat := s.width.toInt.toNat

/-- `HEIGHT` as a number of rows. It is positive whenever a command uses it (R16); log 16 for the rest. -/
def heightN (s : State) : Nat := s.height.toInt.toNat

/-- `bpr = WIDTH * bpp` (R84). -/
def bpr (s : State) : Nat := widthN s * bpp s

/-- `LEN = HEIGHT * WIDTH * bpp` (R17). -/
def len (s : State) : Nat := heightN s * widthN s * bpp s

/-- `npix = WIDTH * HEIGHT` (R12, R37). -/
def npix (s : State) : Nat := widthN s * heightN s

/-- `InBounds(x, y)`: 0 ≤ x < `WIDTH` and 0 ≤ y < `HEIGHT`, all signed (R85). -/
abbrev InBounds (s : State) (x y : Word) : Prop :=
  (0 ≤ x.toInt ∧ x.toInt < s.width.toInt) ∧ (0 ≤ y.toInt ∧ y.toInt < s.height.toInt)

/-- `Index(x, y) = y * bpr + x * bpp`, used in bounds only (R86). -/
def index (s : State) (x y : Word) : Nat := y.toInt.toNat * bpr s + x.toInt.toNat * bpp s

/-- `le16(v)`: the low byte at the lower offset (R9, R41, R62). -/
def le16 (v : Half) : List Byte := [v.extractLsb' 0 8, v.extractLsb' 8 8]

/-- `u16le(b0, b1)`, whose `toInt` is `sext_16` of it (R9, R62). -/
def u16le (b0 b1 : Byte) : Half := b1 ++ b0

/-- Byte `k` of a Color: bits 8k+7:8k (R9, R42, D8). -/
def channel (color : Word) (k : Nat) : Byte := color.extractLsb' (8 * k) 8

/-- The Color whose channel slots 0 to 3 are the four bytes (R42, R54, R88). -/
def colorOf (c0 c1 c2 c3 : Byte) : Word := c3 ++ c2 ++ c1 ++ c0

end Sys2Proof.Machine
end

