-- ==== Sys2Proof/Machine/Flags.lean ====
section
/-!
DEFINITION. What each command puts into `STATUS`: the register's codes (60_exceptions.md R158) and, for each command,
the first error in its own order of tests (R170), `ok` if there is none. The only other flag is `VALID`, which NEW and
DECODE write (10_state.md R15).
-/

namespace Sys2Proof.Machine

open Sys2Proof

/-- The `STATUS` register's 8 bits (R21, R158). -/
def statusCode : Status → Byte
  | .ok => 0#8
  | .invalidDimensions => 1#8
  | .outOfBounds => 2#8
  | .unsupportedFormat => 3#8
  | .unsupportedDataType => 4#8
  | .overrunError => 5#8
  | .ioError => 6#8
  | .dimensionOverflow => 7#8
  | .noImage => 8#8
  | .capacityExceeded => 9#8
  | .illegalCommand => 10#8

/-- NEW's tests in order: `InvalidDimensions`, `UnsupportedFormat`, `CapacityExceeded` (R81, R170). The whole 32-bit
format operand is compared (V26) and the product is exact (R97). -/
def newStatus (c : Config) (width height format : Word) : Status :=
  if width.toInt ≤ 0 ∨ height.toInt ≤ 0 then .invalidDimensions
  else if ¬ FormatCode format.toNat then .unsupportedFormat
  else if c.bufCap < height.toInt.toNat * width.toInt.toNat * format.toNat then .capacityExceeded
  else .ok

/-- The test of SET, CLEAR and FLIP, and the first one of GET and ENCODE: `NoImage` (R98, R167). -/
def imageStatus (s : State) : Status := if s.valid then .ok else .noImage

/-- GET's tests in order: `NoImage`, `OutOfBounds` (R91, R170). -/
def getStatus (s : State) (x y : Word) : Status :=
  if ¬ s.valid then .noImage
  else if ¬ InBounds s x y then .outOfBounds
  else .ok

/-- ENCODE's tests in order: `NoImage`, `DimensionOverflow`, `IoError` (R106, R107, R170). -/
def encodeStatus (s : State) : Status :=
  if ¬ s.valid then .noImage
  else if dimMaxEnc < s.width.toInt ∨ dimMaxEnc < s.height.toInt then .dimensionOverflow
  else if s.ioFail then .ioError
  else .ok

/-- The format code DECODE derives from the header: bits per pixel shifted right by three (R60, R135). -/
def headerFormat (h : Header) : Byte := h.bitsPerPixel >>> 3

/-- DECODE's tests on a parsed header, in order: `UnsupportedFormat`, `InvalidDimensions`, `CapacityExceeded`
(R130, R135 to R137, R170). -/
def headerStatus (c : Config) (h : Header) : Status :=
  if ¬ FormatCode (headerFormat h).toNat then .unsupportedFormat
  else if h.width.toInt ≤ 0 ∨ h.height.toInt ≤ 0 then .invalidDimensions
  else if c.bufCap < h.height.toInt.toNat * h.width.toInt.toNat * (headerFormat h).toNat then .capacityExceeded
  else .ok

end Sys2Proof.Machine
end

