-- ==== Sys2Proof/Machine/Ops.lean ====
section
/-!
DEFINITION. The named operations over memory and registers: bytes of `BUF`, the converter, the input stream, ending a
command well, raising an error (the block's only exception, one shared operation: 60_exceptions.md R157, R166), the
image slot, and the host's side of the port.
-/

namespace Sys2Proof.Machine

open Sys2Proof

/-! ### The pixel buffer -/

/-- The canonical form of a memory: offsets strictly rising, no entry equal to what an unlisted offset reads as. -/
abbrev Memory.wf (m : Memory) : Prop :=
  m.Pairwise (fun p q => p.1 < q.1) ∧ ∀ c ∈ m, c.2 ≠ unlisted

/-- `BUF[a]` (R11). -/
def readByte : Memory → Nat → Byte
  | [], _ => unlisted
  | (k, v) :: m, a => if k = a then v else readByte m a

/-- `BUF[a] <- b` (R11), kept canonical. -/
def writeByte : Memory → Nat → Byte → Memory
  | [], a, b => if b = unlisted then [] else [(a, b)]
  | (k, v) :: m, a, b =>
    if a < k then (if b = unlisted then (k, v) :: m else (a, b) :: (k, v) :: m)
    else if a = k then (if b = unlisted then m else (a, b) :: m)
    else (k, v) :: writeByte m a b

/-- `MemRead(a, n)` (R11). No rule calls it outside [0, `LEN`). -/
def readBytes (m : Memory) (a : Nat) : Nat → List Byte
  | 0 => []
  | n + 1 => readByte m a :: readBytes m (a + 1) n

/-- `MemWrite(a, n, s)` with n the length of `s` (R11). No rule calls it outside [0, `LEN`). -/
def writeBytes (m : Memory) (a : Nat) : List Byte → Memory
  | [] => m
  | b :: bs => writeBytes (writeByte m a b) (a + 1) bs

/-- 0x00 to every byte of [0, `n`) (R93). -/
def zeroFill (m : Memory) (n : Nat) : Memory := m.filter (fun c => n ≤ c.1)

/-- The buffer after `FlipRows`: byte `k` of row `y` is what byte `k` of row `HEIGHT` − 1 − `y` was (R94, R148; the
end state of the loop, log 14). -/
def flippedBytes (s : State) : List Byte :=
  (List.range (len s)).map (fun a => readByte s.buf ((heightN s - 1 - a / bpr s) * bpr s + a % bpr s))

/-- `FlipRows()` (R94, R148). -/
def flipRows (s : State) : Memory := writeBytes s.buf 0 (flippedBytes s)

/-! ### The pixel-format converter -/

/-- `Unpack(a)`, storage to Color, for `n` bytes per pixel (R88): exactly `n` bytes are read, the missing slots are
0xFF. -/
def unpack (m : Memory) (n a : Nat) : Word :=
  let ch := fun c => if c < n then readByte m (a + c) else fill
  colorOf (ch 0) (ch 1) (ch 2) (ch 3)

/-- The bytes `Pack` stores, for `n` bytes per pixel (R89). -/
def packBytes (n : Nat) (color : Word) : List Byte := (List.range n).map (channel color)

/-- `Pack(a, color)`, Color to storage (R89). -/
def pack (m : Memory) (n a : Nat) (color : Word) : Memory := writeBytes m a (packBytes n color)

/-! ### The input stream -/

/-- `InRead(n)` at cursor `pos`: the bytes, or nothing where the stream is too short (R39). The caller advances `pos`. -/
def inRead (file : List Byte) (pos n : Nat) : Option (List Byte) :=
  if pos + n ≤ file.length then some ((file.drop pos).take n) else none

/-! ### How a command ends -/

/-- Success: `STATUS <- OK` (R21, R80). -/
def succeed (s : State) : State := { s with status := .ok }

/-- What R166's row for the failing command leaves unspecified. -/
inductive Loss where
  /-- Nothing: NEW, SET, CLEAR, FLIP, ENCODE, an illegal code. -/
  | nothing
  /-- `RESULT`: GET. -/
  | result
  /-- The image slot: DECODE. -/
  | image
deriving DecidableEq, Repr

/-- `raise <Error>` (R11, R157, R166): `STATUS` gets the error's code, what the command's row of R166 leaves
unspecified becomes a free value (logs 4 and 5), a DECODE in progress is over and its slot invalid, and nothing else
changes: no handler, no saved register, no mode. Control stays with the host, and there is nothing to return from
(R171). -/
def raise (loss : Loss) (e : Status) (s : State) : State :=
  match loss with
  | .nothing => { s with status := e }
  | .result => { s with status := e, result := Config.freeResult s.draws, draws := s.draws + 1 }
  | .image =>
    { s with
      status := e
      valid := false
      width := Config.freeWidth s.draws
      height := Config.freeHeight s.draws
      format := Config.freeFormat s.draws
      buf := writeBytes [] 0 (Config.freeBuf s.draws)
      transfer := none
      draws := s.draws + 1 }

/-- A meaning that runs to a next state, followed by `f`. -/
def mapNext (f : State → State) : Outcome → Outcome
  | .next s => .next (f s)
  | .fault r => .fault r
  | .refused r => .refused r

/-! ### The image slot -/

/-- The geometry registers written and the whole buffer 0x00 (R81, R137): the previous slot is gone. -/
def construct (width height : Word) (format : Byte) (s : State) : State :=
  { s with width := width, height := height, format := format, buf := [] }

/-- `BUF` written, the geometry untouched (R18). -/
def setBuf (m : Memory) (s : State) : State := { s with buf := m }

/-! ### The host's side of the port -/

/-- The command's streams vanish when it ends (R27, R29, R30). -/
def closeStreams (s : State) : State := { s with file := [], ioFail := false }

/-- The streams are closed once no DECODE is in progress. -/
def settle (s : State) : State := if s.transfer = none then closeStreams s else s

/-- The write to `CMD` with the environment's inputs for the command it issues (R19, R27, R29). -/
def latch (code : Byte) (file : List Byte) (ioFail : Bool) (s : State) : State :=
  { s with cmd := code, file := file, ioFail := ioFail }

/-- A reset by the host between commands (R178, R181): `VALID` = 0, `STATUS` = `OK`, `OUT` empty, every other component
unspecified, a free value (log 6). The parameter and the host's further moves are no registers and stay. -/
def hostReset (s : State) : State :=
  { s with
    valid := false
    width := Config.freeWidth s.draws
    height := Config.freeHeight s.draws
    format := Config.freeFormat s.draws
    buf := writeBytes [] 0 (Config.freeBuf s.draws)
    cmd := Config.freeCmd s.draws
    arg0 := Config.freeArg0 s.draws
    arg1 := Config.freeArg1 s.draws
    arg2 := Config.freeArg2 s.draws
    status := .ok
    result := Config.freeResult s.draws
    out := []
    file := []
    ioFail := false
    transfer := none
    draws := s.draws + 1 }

/-- What the host's next move asks of the block: an instruction to run from a state, or a state reached with no
instruction run. -/
inductive HostRequest where
  | run (i : Instr) (s : State)
  | done (s : State)
deriving DecidableEq, Repr

/-- One move of the host (R23, R178), taken between commands. An issue of an unassigned code sets `STATUS` to
`IllegalCommand` and changes nothing else of the block (R169). -/
def hostMove (m : HostMove) (s : State) : HostRequest :=
  match m with
  | .writeArg0 v => .done { s with arg0 := v }
  | .writeArg1 v => .done { s with arg1 := v }
  | .writeArg2 v => .done { s with arg2 := v }
  | .drain n => .done { s with out := s.out.drop n }
  | .reset => .done (hostReset s)
  | .issue code file ioFail =>
    match decode (.command code s.arg0 s.arg1 s.arg2) with
    | .instr i => .run i (latch code file ioFail s)
    | .reject _ => .done (closeStreams (raise .nothing .illegalCommand (latch code file ioFail s)))

end Sys2Proof.Machine
end

