-- ==== Sys2Proof/Machine/Encoder.lean ====
section
/-!
DEFINITION. The encode family (41_encode.md): the header built and packed, the raw payload, the RLE packer, ENCODE.
-/

namespace Sys2Proof.Machine

open Sys2Proof

/-! ### The header -/

/-- The data-type code ENCODE writes (R109). -/
def dataTypeOf (format : Byte) (rle : Bool) : Byte :=
  if format = 1#8 then (if rle then 11#8 else 3#8) else (if rle then 10#8 else 2#8)

/-- The image descriptor ENCODE writes (R110). -/
def descriptorOf (format : Byte) : Byte := topLeft ||| (if format = 4#8 then alpha8 else 0#8)

/-- `BuildHeader(rle)` (R108). The width and height fit 16 bits after R107's test. -/
def buildHeader (rle : Bool) (s : State) : Header where
  idLength := 0#8
  colorMapType := 0#8
  dataType := dataTypeOf s.format rle
  colorMapOrigin := 0#16
  colorMapLength := 0#16
  colorMapDepth := 0#8
  originX := 0#16
  originY := 0#16
  width := s.width.setWidth 16
  height := s.height.setWidth 16
  bitsPerPixel := BitVec.ofNat 8 (bpp s * 8)
  descriptor := descriptorOf s.format

/-- `HdrPack(h)`: the 18 bytes in fixed field order (R111). -/
def hdrPack (h : Header) : List Byte :=
  [h.idLength, h.colorMapType, h.dataType]
    ++ le16 h.colorMapOrigin ++ le16 h.colorMapLength ++ [h.colorMapDepth]
    ++ le16 h.originX ++ le16 h.originY
    ++ le16 h.width ++ le16 h.height
    ++ [h.bitsPerPixel, h.descriptor]

/-! ### The RLE packer -/

/-- The two chunk kinds (R65). -/
inductive ChunkKind where
  | lit
  | rep
deriving DecidableEq, Repr

/-- The bytes of pixel `p`, by linear index (R37, R113). -/
def pixel (s : State) (p : Nat) : List Byte := readBytes s.buf (p * bpp s) (bpp s)

/-- `lim`: the most pixels a chunk at `curpix` may hold, the 128 cap and the row's end (R114). -/
def chunkLimit (s : State) (curpix : Nat) : Nat := min maxChunk (widthN s - curpix % widthN s)

/-- The loop of R116's `RepLen`, from a run of `n` on, for at most `k` rounds. -/
def repGrow (s : State) (curpix lim n : Nat) : Nat → Nat
  | 0 => n
  | k + 1 =>
    if n < lim ∧ pixel s (curpix + (n - 1)) = pixel s (curpix + n) then repGrow s curpix lim (n + 1) k else n

/-- `RepLen(lim)` (R116): used where `lim` ≥ 2 and the first two pixels are equal. -/
def repLen (s : State) (curpix lim : Nat) : Nat := repGrow s curpix lim 2 lim

/-- The loop of R117's `LitLen`, from a run of `n` on, for at most `k` rounds. -/
def litGrow (s : State) (curpix lim n : Nat) : Nat → Nat
  | 0 => n
  | k + 1 =>
    if n < lim then
      if n = lim - 1 then lim
      else if pixel s (curpix + n) = pixel s (curpix + (n + 1)) then n
      else litGrow s curpix lim (n + 1) k
    else n

/-- `LitLen(lim)` (R117): used where `lim` ≥ 2 and the first two pixels differ. -/
def litLen (s : State) (curpix lim : Nat) : Nat := litGrow s curpix lim 1 lim

/-- `Classify(curpix, lim)` (R115). A lone pixel is a literal run of one, with no comparison made. -/
def classify (s : State) (curpix lim : Nat) : ChunkKind × Nat :=
  if lim = 1 then (.lit, 1)
  else if pixel s curpix = pixel s (curpix + 1) then (.rep, repLen s curpix lim)
  else (.lit, litLen s curpix lim)

/-- `ChunkBytes(kind, n, curpix)`: the header byte and the payload (R118). -/
def chunkBytes (s : State) (curpix : Nat) : ChunkKind × Nat → List Byte
  | (.lit, n) => BitVec.ofNat 8 (n - 1) :: readBytes s.buf (curpix * bpp s) (n * bpp s)
  | (.rep, n) => BitVec.ofNat 8 (128 + n - 1) :: readBytes s.buf (curpix * bpp s) (bpp s)

/-- The loop of R113 from pixel `curpix` on, for at most `k` chunks. -/
def packFrom (s : State) (curpix : Nat) : Nat → List Byte
  | 0 => []
  | k + 1 =>
    if curpix < npix s then
      let c := classify s curpix (chunkLimit s curpix)
      chunkBytes s curpix c ++ packFrom s (curpix + c.2) k
    else []

/-- `RlePack()` (R113): at most `npix` chunks (R119). -/
def rlePack (s : State) : List Byte := packFrom s 0 (npix s)

/-! ### R120's one loop, for the statement that it finds the same chunks -/

/-- The loop of R120, with its variables `run` and `raw`, for at most `k` rounds. -/
def runLoop (s : State) (curpix lim run : Nat) (raw : Bool) : Nat → ChunkKind × Nat
  | 0 => (if raw then .lit else .rep, run)
  | k + 1 =>
    if run < lim then
      let eq := decide (pixel s (curpix + (run - 1)) = pixel s (curpix + run))
      let raw' := if run = 1 then !eq else raw
      if raw' && eq then (.lit, run - 1)
      else if !raw' && !eq then (.rep, run)
      else runLoop s curpix lim (run + 1) raw' k
    else (if raw then .lit else .rep, run)

/-- R120, whole: `raw` starts true, `run` starts at 1. -/
def classifyLoop (s : State) (curpix lim : Nat) : ChunkKind × Nat := runLoop s curpix lim 1 true lim

/-! ### The command -/

/-- The payload ENCODE emits: the RLE stream (R113) or the raw buffer (R112). -/
def payload (rle : Bool) (s : State) : List Byte :=
  if rle then rlePack s else readBytes s.buf 0 (len s)

/-- `E`: the whole file ENCODE emits (R57, R106). -/
def encodedFile (rle : Bool) (s : State) : List Byte := hdrPack (buildHeader rle s) ++ payload rle s

/-- ENCODE (R106): the file is appended to `OUT` whole, on success only (R28, R123); the image is never changed
(R124). -/
def execEncode (rle : Bool) (s : State) : Outcome :=
  let st := encodeStatus s
  if st = .ok then .next (succeed { s with out := s.out ++ [encodedFile rle s] })
  else .next (raise .nothing st s)

end Sys2Proof.Machine
end

