-- ==== Sys2Proof/Machine/Image.lean ====
section
/-!
DEFINITION. The image buffer family: NEW, GET, SET, CLEAR, FLIP (40_image_buffer.md).
-/

namespace Sys2Proof.Machine

open Sys2Proof

/-- NEW (R81). On an error the slot is unchanged (R81, R166). It works from any state: `VALID` is not read. -/
def execNew (width height format : Word) (s : State) : Outcome :=
  let st := newStatus s.cfg width height format
  if st = .ok then
    .next (succeed { construct width height (format.setWidth 8) s with valid := true })
  else .next (raise .nothing st s)

/-- GET (R91). `RESULT` is written on success; after a failure it is unspecified (R22, R166). -/
def execGet (x y : Word) (s : State) : Outcome :=
  let st := getStatus s x y
  if st = .ok then
    .next (succeed { s with result := unpack s.buf (bpp s) (index s x y) })
  else .next (raise .result st s)

/-- SET (R92). Out of bounds the write is dropped and the command succeeds (R92, R173). -/
def execSet (x y color : Word) (s : State) : Outcome :=
  let st := imageStatus s
  if st = .ok then
    if InBounds s x y then .next (succeed (setBuf (pack s.buf (bpp s) (index s x y) color) s))
    else .next (succeed s)
  else .next (raise .nothing st s)

/-- CLEAR (R93). -/
def execClear (s : State) : Outcome :=
  let st := imageStatus s
  if st = .ok then .next (succeed (setBuf (zeroFill s.buf (len s)) s))
  else .next (raise .nothing st s)

/-- FLIP (R94). -/
def execFlip (s : State) : Outcome :=
  let st := imageStatus s
  if st = .ok then .next (succeed (setBuf (flipRows s) s))
  else .next (raise .nothing st s)

/-! ### FLIP as R94's loop, for the statement that the end state is the loop's -/

/-- The inner loop of R94 from byte `k` on: `n` bytes of the rows at offsets `p` and `q` change places. -/
def swapSpan (m : Memory) (p q k : Nat) : Nat → Memory
  | 0 => m
  | n + 1 =>
    swapSpan (writeByte (writeByte m (p + k) (readByte m (q + k))) (q + k) (readByte m (p + k))) p q (k + 1) n

/-- The outer loop of R94 from row `i` on, for `n` rows of `h` rows of `w` bytes. -/
def swapRows (m : Memory) (h w i : Nat) : Nat → Memory
  | 0 => m
  | n + 1 => swapRows (swapSpan m (i * w) ((h - 1 - i) * w) 0 w) h w (i + 1) n

/-- R94's loop, whole. -/
def flipLoop (s : State) : Memory := swapRows s.buf (heightN s) (bpr s) 0 (heightN s / 2)

end Sys2Proof.Machine
end

