-- ==== Sys2Proof/Machine/Stream.lean ====
section
/-!
DEFINITION. The parts of DECODE (42_decode.md): the header unpacked, what a DECODE in progress fetches next, the raw
read, the two chunk kinds, the end. Each acts on the locals of the DECODE in progress (`Transfer`).
-/

namespace Sys2Proof.Machine

open Sys2Proof

/-- `HdrUnpack(b)` for 18 bytes `b` (R134). It never fails. -/
def hdrUnpack (b : List Byte) : Header :=
  let at' := fun k => b.getD k 0#8
  { idLength := at' 0
    colorMapType := at' 1
    dataType := at' 2
    colorMapOrigin := u16le (at' 3) (at' 4)
    colorMapLength := u16le (at' 5) (at' 6)
    colorMapDepth := at' 7
    originX := u16le (at' 8) (at' 9)
    originY := u16le (at' 10) (at' 11)
    width := u16le (at' 12) (at' 13)
    height := u16le (at' 14) (at' 15)
    bitsPerPixel := at' 16
    descriptor := at' 17 }

/-- The construction of R137 and the locals of a DECODE whose header passed its tests: `pos` after the header, `count`
0, the dispatch next. `VALID` is 0 until the end (R131). -/
def beginTransfer (h : Header) (s : State) : State :=
  { construct (h.width.signExtend 32) (h.height.signExtend 32) (headerFormat h) s with
    valid := false
    transfer := some { header := h, pos := hdrLen, count := 0, phase := .dataType } }

/-- The end of R130: the flip of a bottom-left file (R148), then `VALID <- 1` and `STATUS <- OK` (R149). -/
def finishDecode (t : Transfer) (s : State) : State :=
  { s with
    buf := if t.header.descriptor &&& topLeft = 0#8 then flipRows s else s.buf
    valid := true
    status := .ok
    transfer := none }

/-- Data-type 2 or 3 (R138, R139): the next `LEN` bytes of the stream are the buffer. -/
def rawPayload (t : Transfer) (s : State) : State :=
  match inRead s.file t.pos (len s) with
  | none => raise .image .ioError s
  | some bs =>
    { s with
      buf := writeBytes s.buf 0 bs
      transfer := some { t with pos := t.pos + len s, phase := .finished } }

/-- Data-type 10 or 11 (R138, R140): the chunk loop starts at pixel 0. -/
def rlePayload (t : Transfer) (s : State) : State :=
  { s with transfer := some { t with count := 0, phase := .chunks } }

/-- LIT of `n` pixels (R143), after the overrun test of R142. `t.pos` stands after the chunk's header byte. -/
def litChunk (n : Nat) (t : Transfer) (s : State) : State :=
  if npix s < t.count + n then raise .image .overrunError s
  else
    match inRead s.file t.pos (n * bpp s) with
    | none => raise .image .ioError s
    | some bs =>
      { s with
        buf := writeBytes s.buf (t.count * bpp s) bs
        transfer := some { t with pos := t.pos + n * bpp s, count := t.count + n } }

/-- REP of `n` pixels (R144), after the overrun test of R142. `t.pos` stands after the chunk's header byte. -/
def repChunk (n : Nat) (t : Transfer) (s : State) : State :=
  if npix s < t.count + n then raise .image .overrunError s
  else
    match inRead s.file t.pos (bpp s) with
    | none => raise .image .ioError s
    | some p =>
      { s with
        buf := writeBytes s.buf (t.count * bpp s) (List.replicate n p).flatten
        transfer := some { t with pos := t.pos + bpp s, count := t.count + n } }

/-- What a DECODE in progress does next: an instruction of its stream, with the locals after its byte is read, or a
state reached without one. -/
inductive Fetched where
  | run (i : Instr) (t : Transfer)
  | stop (s : State)
deriving DecidableEq, Repr

/-- The fetch: the data-type code of the header (R138), a chunk header byte while pixels are missing (R140, R146), and
the end once none are (R145). -/
def fetchStream (t : Transfer) (s : State) : Fetched :=
  match t.phase with
  | .dataType =>
    match decode (.dataType t.header.dataType) with
    | .instr i => .run i t
    | .reject _ => .stop (raise .image .unsupportedDataType s)
  | .chunks =>
    if t.count < npix s then
      match inRead s.file t.pos 1 with
      | some (h :: _) =>
        match decode (.chunk h) with
        | .instr i => .run i { t with pos := t.pos + 1 }
        | .reject _ => .stop (raise .image .unsupportedDataType s)
      | _ => .stop (raise .image .ioError s)
    else .stop (finishDecode t s)
  | .finished => .stop (finishDecode t s)

end Sys2Proof.Machine
end

