-- ==== Sys2Proof/Machine/Chunk.lean ====
section
/-!
DEFINITION. The chunk instructions of an RLE stream: LIT and REP (42_decode.md R140 to R145).
-/

namespace Sys2Proof.Machine

open Sys2Proof

/-- LIT (R143): inside a DECODE only; elsewhere there is no stream (log 11). -/
def execLit (n : Nat) (s : State) : Outcome :=
  match s.transfer with
  | some t => .next (litChunk n t s)
  | none => .fault .noTransfer

/-- REP (R144): inside a DECODE only; elsewhere there is no stream (log 11). -/
def execRep (n : Nat) (s : State) : Outcome :=
  match s.transfer with
  | some t => .next (repChunk n t s)
  | none => .fault .noTransfer

end Sys2Proof.Machine
end

