-- ==== Sys2Proof/Machine/DataType.lean ====
section
/-!
DEFINITION. The data-type codes of a file header (42_decode.md R138): each chooses how DECODE reads the payload. Codes 2
and 3 act alike, and 10 and 11: the code's colour half is not compared with the format (R135, R138).
-/

namespace Sys2Proof.Machine

open Sys2Proof

/-- DT_RAW_COLOR, code 2 (R138, R139): inside a DECODE only (log 11). -/
def execDtRawColor (s : State) : Outcome :=
  match s.transfer with
  | some t => .next (rawPayload t s)
  | none => .fault .noTransfer

/-- DT_RAW_GRAY, code 3 (R138, R139): inside a DECODE only (log 11). -/
def execDtRawGray (s : State) : Outcome :=
  match s.transfer with
  | some t => .next (rawPayload t s)
  | none => .fault .noTransfer

/-- DT_RLE_COLOR, code 10 (R138, R140): inside a DECODE only (log 11). -/
def execDtRleColor (s : State) : Outcome :=
  match s.transfer with
  | some t => .next (rlePayload t s)
  | none => .fault .noTransfer

/-- DT_RLE_GRAY, code 11 (R138, R140): inside a DECODE only (log 11). -/
def execDtRleGray (s : State) : Outcome :=
  match s.transfer with
  | some t => .next (rlePayload t s)
  | none => .fault .noTransfer

end Sys2Proof.Machine
end

