-- ==== Sys2Proof/Machine/Load.lean ====
section
/-!
DEFINITION. DECODE (42_decode.md R130): one command, executed whole (20_memory.md R46). Its body is the loop that
fetches the instructions of the stream and runs each by its own meaning.
-/

namespace Sys2Proof.Machine

open Sys2Proof

/-- The meaning of an instruction of the stream. The fetch yields no command. -/
def execStream (i : Instr) (s : State) : Outcome :=
  match i with
  | .lit n => execLit n s
  | .rep n => execRep n s
  | .dtRawColor => execDtRawColor s
  | .dtRawGray => execDtRawGray s
  | .dtRleColor => execDtRleColor s
  | .dtRleGray => execDtRleGray s
  | .new _ _ _ => .fault .noTransfer
  | .get _ _ => .fault .noTransfer
  | .set _ _ _ => .fault .noTransfer
  | .clear => .fault .noTransfer
  | .flip => .fault .noTransfer
  | .encode _ => .fault .noTransfer
  | .decode => .fault .noTransfer

/-- One round of a DECODE in progress. -/
def transferRound (t : Transfer) (s : State) : Outcome :=
  match fetchStream t s with
  | .run i t' => execStream i { s with transfer := some t' }
  | .stop s' => .next s'

/-- Rounds until no DECODE is in progress, at most `k`. -/
def runTransfer : Nat → State → Outcome
  | 0, s => .next s
  | k + 1, s =>
    match s.transfer with
    | none => .next s
    | some t =>
      match transferRound t s with
      | .next s' => runTransfer k s'
      | .fault r => .fault r
      | .refused r => .refused r

/-- The rounds a DECODE can need: the dispatch, at most `npix` chunks (R154), the end. -/
def transferRounds (s : State) : Nat := npix s + 2

/-- DECODE up to the dispatch (R130 to R137): the error it raises, or the state in which its stream is read next. -/
def openDecode (s : State) : State :=
  if s.ioFail then raise .image .ioError s
  else
    match inRead s.file 0 hdrLen with
    | none => raise .image .ioError s
    | some hb =>
      let st := headerStatus s.cfg (hdrUnpack hb)
      if st = .ok then beginTransfer (hdrUnpack hb) s else raise .image st s

/-- DECODE (R130). -/
def execDecode (s : State) : Outcome :=
  runTransfer (transferRounds (openDecode s)) (openDecode s)

end Sys2Proof.Machine
end

