-- ==== Sys2Proof/Machine/Dispatch.lean ====
section
/-!
DEFINITION. One arm per instruction, each a direct call of its meaning.
-/

namespace Sys2Proof.Machine

open Sys2Proof

/-- The meaning of an instruction. -/
def exec (i : Instr) (s : State) : Host.Outcome State Fault Refusal :=
  match i with
  | .new width height format => Sys2Proof.Machine.execNew width height format s
  | .get x y => Sys2Proof.Machine.execGet x y s
  | .set x y color => Sys2Proof.Machine.execSet x y color s
  | .clear => Sys2Proof.Machine.execClear s
  | .flip => Sys2Proof.Machine.execFlip s
  | .encode rle => Sys2Proof.Machine.execEncode rle s
  | .decode => Sys2Proof.Machine.execDecode s
  | .lit n => Sys2Proof.Machine.execLit n s
  | .rep n => Sys2Proof.Machine.execRep n s
  | .dtRawColor => Sys2Proof.Machine.execDtRawColor s
  | .dtRawGray => Sys2Proof.Machine.execDtRawGray s
  | .dtRleColor => Sys2Proof.Machine.execDtRleColor s
  | .dtRleGray => Sys2Proof.Machine.execDtRleGray s

end Sys2Proof.Machine
end

