-- ==== Sys2Proof/Machine/Step.lean ====
section
/-!
DEFINITION. One step. A DECODE in progress takes its next round; else the host makes its next move, and an issue runs
the whole command (10_state.md R13, R19; 20_memory.md R46, R50); else the block is idle and holds all its state
(60_exceptions.md R177, 70_reset_and_hazards.md R183).
-/

namespace Sys2Proof.Machine

open Sys2Proof

/-- One step. -/
def step (s : State) : Host.Outcome State Fault Refusal :=
  match s.transfer with
  | some t =>
    match fetchStream t s with
    | .run i t' => mapNext settle (exec i { s with transfer := some t' })
    | .stop s' => .next (settle s')
  | none =>
    match s.script with
    | [] => .next s
    | m :: rest =>
      match hostMove m { s with script := rest } with
      | .run i s' => mapNext settle (exec i s')
      | .done s' => .next s'

/-- `s` with the instruction whose bits are `w` (numbered as spec/opcode_table.json numbers them) where `step` fetches
its next one (log 9). A command: the host's next move issues it, with its operands in `ARG0` to `ARG2`, no input
stream and no I/O failure. A data-type code: it stands in the header of a DECODE in progress. A chunk header byte: it
is the next byte of the stream of a DECODE in progress, payload bytes of 0 after it, into a 128×1 Grayscale image. -/
def State.withFetchWord (s : State) (nbits w : Nat) : State :=
  match tableWord nbits w with
  | .command code arg0 arg1 arg2 =>
    { s with transfer := none, arg0 := arg0, arg1 := arg1, arg2 := arg2, script := .issue code [] false :: s.script }
  | .dataType code =>
    { s with transfer := some { header := { hdrUnpack [] with dataType := code }, pos := 0, count := 0, phase := .dataType } }
  | .chunk header =>
    { s with
      width := 128#32
      height := 1#32
      format := 1#8
      file := header :: List.replicate 128 0#8
      transfer := some { header := hdrUnpack [], pos := 0, count := 0, phase := .chunks } }

end Sys2Proof.Machine
end

