-- ==== Sys2Proof/Safety.lean ====
section
/-!
DEFINITION. What a sound state is: the invariants the spec states (00_scope.md R7, 10_state.md R15 to R17, R31), and the
canonical form of the buffer's memory. Statements use these as premises where they could fail in states no run reaches.
-/

namespace Sys2Proof.Safety

open Sys2Proof Sys2Proof.Machine

/-- The slot holds an image: R16 and R17, with every listed byte inside [0, `LEN`). -/
abbrev ImageOk (s : State) : Prop :=
  0 < s.width.toInt ∧ 0 < s.height.toInt ∧ FormatCode (bpp s) ∧ len s ≤ s.cfg.bufCap ∧ ∀ c ∈ s.buf, c.1 < len s

/-- A DECODE in progress has its geometry, has decoded at most `npix` pixels, has read no further than the end of its
stream, and its slot is not yet valid (R31, R131, R142). -/
abbrev TransferOk (s : State) (t : Transfer) : Prop :=
  s.valid = false ∧ ImageOk s ∧ t.count ≤ npix s ∧ t.pos ≤ s.file.length

/-- The invariant of the machine. -/
abbrev Inv (s : State) : Prop :=
  s.cfg.Ok ∧ Memory.wf s.buf ∧ (s.valid = true → ImageOk s) ∧ ∀ t ∈ s.transfer, TransferOk s t

/-- Between commands: no DECODE is in progress. Every run of the host's moves from reset is made of such states. -/
abbrev AtRest (s : State) : Prop := s.transfer = none

end Sys2Proof.Safety
end

