-- ==== Sys2Proof/Certificates/Slice0/Obligations.lean ====
section
/-!
DEFINITION. The statements for the provers, each from the numbered rules of spec/ (OBLIGATIONS.json cites them).
-/

open Sys2Proof Sys2Proof.Machine Sys2Proof.Safety

/-! ### Encodings -/

/-- R59, R65, R71, R72: decoding the encoding of a well-formed instruction gives it back, operands and all. -/
def Obligations.DecodeUndoesEncode : Prop :=
  ∀ i : Instr, i.wellFormed = true → decode (encode i) = .instr i

/-- R71, R72, R65, R59: one word of each family, written out from the encoding. -/
def Obligations.SpecWordsDecode : Prop :=
  decode (.command 0b00000001#8 2#32 1#32 3#32) = .instr (.new 2#32 1#32 3#32) ∧
  decode (.command 0b00000010#8 1#32 0#32 9#32) = .instr (.get 1#32 0#32) ∧
  decode (.command 0b00000110#8 2#32 0#32 0#32) = .instr (.encode true) ∧
  decode (.command 0b00000111#8 0#32 0#32 0#32) = .instr .decode ∧
  decode (.chunk 0b00000010#8) = .instr (.lit 3) ∧
  decode (.chunk 0b10000010#8) = .instr (.rep 3) ∧
  decode (.dataType 0b00000010#8) = .instr .dtRawColor ∧
  decode (.dataType 0b00001011#8) = .instr .dtRleGray

/-- R141: every byte is a chunk header; 0 to 127 is LIT of `hbyte + 1` pixels, 128 to 255 REP of `hbyte − 127`. -/
def Obligations.EveryByteIsAChunkHeader : Prop :=
  ∀ h : Byte,
    (h.toNat < 128 → decode (.chunk h) = .instr (.lit (h.toNat + 1))) ∧
    (128 ≤ h.toNat → decode (.chunk h) = .instr (.rep (h.toNat - 127)))

/-- R59, R65, R71, R73: in each place at most one row of the table admits a byte, and the decoder answers the
instruction of that row, or rejects where no row admits it. -/
def Obligations.DecoderFollowsOpcodeTable : Prop :=
  ∀ e : Encoded,
    (∀ r ∈ opcodeTable, ∀ q ∈ opcodeTable,
      r.admits (placeOf e) (codeByte e) = true → q.admits (placeOf e) (codeByte e) = true → r = q) ∧
    ((∃ i, decode e = .instr i ∧ ∃ r ∈ opcodeTable, r.mnemonic = mnemonicOf i ∧
        r.admits (placeOf e) (codeByte e) = true) ∨
      (∃ err, decode e = .reject err ∧ ∀ r ∈ opcodeTable, r.admits (placeOf e) (codeByte e) = false))

/-- R169: a code other than 0x01 to 0x07 written to `CMD` sets `STATUS` to 10 and changes nothing else of the block
(`CMD` itself is the host's write; the command's streams vanish with it, R27). -/
def Obligations.UnassignedCodeSetsStatus : Prop :=
  ∀ (s : State) (code : Byte) (file : List Byte) (ioFail : Bool) (rest : List HostMove),
    AtRest s → s.script = .issue code file ioFail :: rest → (code.toNat = 0 ∨ 8 ≤ code.toNat) →
    step s = .next { s with script := rest, cmd := code, status := .illegalCommand, file := [], ioFail := false } ∧
    statusCode .illegalCommand = 10#8

/-! ### What a step runs -/

/-- R13, R19: where the host's next move writes the code of an instruction, a step is that instruction's meaning on the
state with `CMD` and the command's inputs in place; afterwards the command's streams are closed. -/
def Obligations.StepRunsIssuedCommand : Prop :=
  ∀ (s : State) (code : Byte) (file : List Byte) (ioFail : Bool) (rest : List HostMove) (i : Instr),
    AtRest s → s.script = .issue code file ioFail :: rest →
    decode (.command code s.arg0 s.arg1 s.arg2) = .instr i →
    step s = mapNext settle (exec i { s with script := rest, cmd := code, file := file, ioFail := ioFail })

/-- R138, R140: where a DECODE is in progress, a step is the meaning of the instruction its stream holds next: the
header's data-type code, or the chunk whose header byte stands at the cursor, the cursor moved past that byte. That a
step takes one instruction of a DECODE in progress is the model's choice (notes/assumptions/7.md): for the host a DECODE
is one atomic command (R13, R46). -/
def Obligations.StepRunsStreamInstruction : Prop :=
  ∀ (s : State) (t : Transfer) (i : Instr), s.transfer = some t →
    (t.phase = .dataType → decode (.dataType t.header.dataType) = .instr i → step s = mapNext settle (exec i s)) ∧
    (t.phase = .chunks → t.count < npix s → ∀ h : Byte, s.file[t.pos]? = some h → decode (.chunk h) = .instr i →
      step s = mapNext settle (exec i { s with transfer := some { t with pos := t.pos + 1 } }))

/-- R183, R177, R23, R28: with no move pending the block holds all its state; a write to an operand register changes
that register, a drain removes files from the front of `OUT`, and neither changes anything else. That a drain of more
files than `OUT` holds leaves it empty is the model's choice (notes/assumptions/1.md). -/
def Obligations.HostMovesTouchTheirRegister : Prop :=
  ∀ (s : State) (rest : List HostMove) (v : Word) (n : Nat), AtRest s →
    (s.script = [] → step s = .next s) ∧
    (s.script = .writeArg0 v :: rest → step s = .next { s with script := rest, arg0 := v }) ∧
    (s.script = .writeArg1 v :: rest → step s = .next { s with script := rest, arg1 := v }) ∧
    (s.script = .writeArg2 v :: rest → step s = .next { s with script := rest, arg2 := v }) ∧
    (s.script = .drain n :: rest → step s = .next { s with script := rest, out := s.out.drop n })

/-- R181: after a reset `VALID` = 0, `STATUS` = `OK`, `OUT` is empty; the instance's parameter stays. -/
def Obligations.HostResetClears : Prop :=
  ∀ (s : State) (rest : List HostMove), AtRest s → s.script = .reset :: rest →
    ∃ t, step s = .next t ∧ t.valid = false ∧ t.status = .ok ∧ t.out = [] ∧ t.transfer = none ∧ t.cfg = s.cfg ∧
      t.script = rest

/-- R32: what the spec gives the state right after reset. -/
def Obligations.ResetValues : Prop :=
  State.reset.valid = false ∧ statusCode State.reset.status = 0#8 ∧ State.reset.out = []

/-- R31, R68: a chunk at the cursor moves the cursor by the chunk's size and the count by its pixels, where the DECODE
goes on. That a step takes one chunk of a DECODE in progress is the model's choice (notes/assumptions/7.md). -/
def Obligations.StepAdvancesByChunkSize : Prop :=
  ∀ (s : State) (t : Transfer) (h : Byte), s.transfer = some t → t.phase = .chunks → t.count < npix s →
    s.file[t.pos]? = some h → t.count + (h.toNat % 128 + 1) ≤ npix s →
    t.pos + chunkSize (bpp s) h ≤ s.file.length →
    ∃ s' t', step s = .next s' ∧ s'.transfer = some t' ∧ t'.pos = t.pos + chunkSize (bpp s) h ∧
      t'.count = t.count + (h.toNat % 128 + 1)

/-- R158: the eleven codes, all different. -/
def Obligations.StatusCodesAreTheTables : Prop :=
  [Status.ok, .invalidDimensions, .outOfBounds, .unsupportedFormat, .unsupportedDataType, .overrunError, .ioError,
    .dimensionOverflow, .noImage, .capacityExceeded, .illegalCommand].map (fun e => (statusCode e).toNat) =
    [0, 1, 2, 3, 4, 5, 6, 7, 8, 9, 10]

/-! ### Invariants of the whole machine -/

/-- The invariant holds right after reset. -/
def Obligations.ResetMeetsInvariant : Prop := Inv State.reset ∧ AtRest State.reset

/-- R16, R17, R31: every step keeps the invariant: `BUF` is canonical, a valid slot has a positive geometry, a legal
format, a length within `BUF_CAP` and no byte outside it, and a DECODE in progress stays within its bounds (a state with
a DECODE in progress is the model's choice, notes/assumptions/7.md). -/
def Obligations.StepKeepsInvariant : Prop :=
  ∀ s t : State, Inv s → step s = .next t → Inv t

/-- R30, R46: a command leaves none of its locals behind: between commands no DECODE is in progress. -/
def Obligations.StepKeepsRest : Prop :=
  ∀ s t : State, AtRest s → step s = .next t → AtRest t

/-- R157, R172, R189: no state makes the machine stop: a step always answers a next state. -/
def Obligations.StepAlwaysAnswers : Prop :=
  ∀ s : State, ∃ t, step s = .next t

/-- R34: `BUF_CAP` is fixed for the life of a block. -/
def Obligations.CapacityNeverChanges : Prop :=
  ∀ s t : State, step s = .next t → t.cfg = s.cfg

/-- R15: between commands, `VALID` becomes 1 only by a NEW or a DECODE that succeeds, and 0 only by a reset or by a
DECODE that fails. -/
def Obligations.ValidChangesOnlyBy : Prop :=
  ∀ s t : State, AtRest s → step s = .next t →
    (s.valid = false → t.valid = true →
      t.status = .ok ∧ ∃ code file ioFail rest, s.script = .issue code file ioFail :: rest ∧ (code = 0x01#8 ∨ code = 0x07#8)) ∧
    (s.valid = true → t.valid = false →
      (∃ rest, s.script = .reset :: rest) ∨
      (t.status ≠ .ok ∧ ∃ file ioFail rest, s.script = .issue 0x07#8 file ioFail :: rest))

/-- R22: between commands, `RESULT` changes only by a GET or a reset. -/
def Obligations.ResultChangesOnlyByGet : Prop :=
  ∀ s t : State, AtRest s → step s = .next t → t.result ≠ s.result →
    (∃ file ioFail rest, s.script = .issue 0x02#8 file ioFail :: rest) ∨ (∃ rest, s.script = .reset :: rest)

/-- R28: between commands, `OUT` changes only by an ENCODE that succeeds, which appends one file, by the host's drain,
or by a reset. -/
def Obligations.OutChangesOnlyByEncodeOrHost : Prop :=
  ∀ s t : State, AtRest s → step s = .next t → t.out ≠ s.out →
    (t.status = .ok ∧ ∃ file ioFail rest E, s.script = .issue 0x06#8 file ioFail :: rest ∧ t.out = s.out ++ [E]) ∨
    (∃ n rest, s.script = .drain n :: rest ∧ t.out = s.out.drop n) ∨
    (∃ rest, s.script = .reset :: rest ∧ t.out = [])

/-- R18: GET, SET, CLEAR, FLIP and ENCODE leave the geometry as it is; GET and ENCODE leave the whole slot. -/
def Obligations.GeometryFixedByOthers : Prop :=
  ∀ (s t : State) (i : Instr),
    ((∃ x y, i = .get x y) ∨ (∃ x y c, i = .set x y c) ∨ i = .clear ∨ i = .flip ∨ (∃ rle, i = .encode rle)) →
    exec i s = .next t →
    t.valid = s.valid ∧ t.width = s.width ∧ t.height = s.height ∧ t.format = s.format ∧
    (((∃ x y, i = .get x y) ∨ (∃ rle, i = .encode rle)) → t.buf = s.buf)

/-! ### The indexer and the converter -/

/-- R87, (a) to (e), for a slot that holds an image. -/
def Obligations.IndexProperties : Prop :=
  ∀ s : State, 0 < s.width.toInt → 0 < s.height.toInt → FormatCode (bpp s) →
    (∀ x y, InBounds s x y → index s x y + bpp s ≤ len s) ∧
    (∀ x y, x.toInt = s.width.toInt - 1 → y.toInt = s.height.toInt - 1 → index s x y = len s - bpp s) ∧
    (∀ x y, InBounds s x y → (index s x y : Int) = (y.toInt * s.width.toInt + x.toInt) * (bpp s : Int)) ∧
    (∀ x y x' y', InBounds s x y → InBounds s x' y' → (x, y) ≠ (x', y') →
      index s x y + bpp s ≤ index s x' y' ∨ index s x' y' + bpp s ≤ index s x y) ∧
    (∀ a, a < len s → ∃ x y, InBounds s x y ∧ x.toInt = (((a / bpp s) % widthN s : Nat) : Int) ∧
      y.toInt = ((a / bpr s : Nat) : Int) ∧ index s x y ≤ a ∧ a < index s x y + bpp s) ∧
    (∀ x y, InBounds s x y → InBounds s (x + 1#32) y → index s (x + 1#32) y = index s x y + bpp s) ∧
    (∀ x y, InBounds s x y → x.toInt = s.width.toInt - 1 → InBounds s 0#32 (y + 1#32) →
      index s 0#32 (y + 1#32) = index s x y + bpp s)

/-- R90: (a) reading a pixel back after storing it forces the slots the format lacks to 0xFF, (b) storing what was read
changes nothing, (c) a pixel moved to another format keeps the bytes both have and gets 0xFF for the others. -/
def Obligations.ConverterLaws : Prop :=
  ∀ (m : Memory) (n a : Nat) (c : Word), Memory.wf m → FormatCode n →
    unpack (pack m n a c) n a = c ||| (if n = 1 then 0xFFFFFF00#32 else if n = 3 then 0xFF000000#32 else 0#32) ∧
    pack m n a (unpack m n a) = m ∧
    (∀ n', FormatCode n' → packBytes n' (unpack m n a) =
      (List.range n').map (fun k => if k < n then readByte m (a + k) else 0xFF#8))

/-! ### The image buffer family -/

/-- R81: NEW, whole: its encoding, the image it makes and what it leaves alone; its errors in order, each leaving
everything but `STATUS` as it was. That the offsets from `LEN` on, which are no state in the spec (R17), read 0x00 too is
the model's choice (notes/assumptions/10.md). -/
def Obligations.NewCommand : Prop :=
  ∀ (s : State) (w h f : Word),
    decode (.command 0x01#8 w h f) = .instr (.new w h f) ∧
    (0 < w.toInt → 0 < h.toInt → FormatCode f.toNat → h.toInt * w.toInt * (f.toNat : Int) ≤ (s.cfg.bufCap : Int) →
      ∃ m g, exec (.new w h f) s =
          .next { s with valid := true, width := w, height := h, format := g, buf := m, status := .ok } ∧
        g.toNat = f.toNat ∧ ∀ a, readByte m a = 0#8) ∧
    (w.toInt ≤ 0 ∨ h.toInt ≤ 0 → exec (.new w h f) s = .next { s with status := .invalidDimensions }) ∧
    (0 < w.toInt → 0 < h.toInt → ¬ FormatCode f.toNat →
      exec (.new w h f) s = .next { s with status := .unsupportedFormat }) ∧
    (0 < w.toInt → 0 < h.toInt → FormatCode f.toNat → (s.cfg.bufCap : Int) < h.toInt * w.toInt * (f.toNat : Int) →
      exec (.new w h f) s = .next { s with status := .capacityExceeded })

/-- R91: GET, whole: its encoding, the Color it reads, slot by slot, and what it leaves alone; its errors in order. After an error
`RESULT` is unspecified (R22), so the statement holds for every value of it. -/
def Obligations.GetCommand : Prop :=
  ∀ (s : State) (x y z : Word),
    decode (.command 0x02#8 x y z) = .instr (.get x y) ∧
    (s.valid = true → InBounds s x y →
      ∃ c, exec (.get x y) s = .next { s with result := c, status := .ok } ∧
        ∀ k < 4, channel c k = if k < bpp s then readByte s.buf (index s x y + k) else 0xFF#8) ∧
    (s.valid = false → ∃ r d, exec (.get x y) s = .next { s with status := .noImage, result := r, draws := d }) ∧
    (s.valid = true → ¬ InBounds s x y →
      ∃ r d, exec (.get x y) s = .next { s with status := .outOfBounds, result := r, draws := d })

/-- R92: SET, whole: its encoding; in bounds the pixel's bytes become the color's and every other byte stays; out of bounds nothing
is written and the command succeeds; without an image it fails. -/
def Obligations.SetCommand : Prop :=
  ∀ (s : State) (x y c : Word), Memory.wf s.buf →
    decode (.command 0x03#8 x y c) = .instr (.set x y c) ∧
    (s.valid = true → InBounds s x y →
      ∃ m, exec (.set x y c) s = .next { s with buf := m, status := .ok } ∧
        ∀ a, readByte m a =
          if index s x y ≤ a ∧ a < index s x y + bpp s then channel c (a - index s x y) else readByte s.buf a) ∧
    (s.valid = true → ¬ InBounds s x y → exec (.set x y c) s = .next { s with status := .ok }) ∧
    (s.valid = false → exec (.set x y c) s = .next { s with status := .noImage })

/-- R93: CLEAR, whole: its encoding; every byte of [0, `LEN`) is 0x00, nothing else changes. -/
def Obligations.ClearCommand : Prop :=
  ∀ (s : State) (a b c : Word),
    decode (.command 0x04#8 a b c) = .instr .clear ∧
    (s.valid = true → ∃ m, exec .clear s = .next { s with buf := m, status := .ok } ∧
      ∀ a, readByte m a = if a < len s then 0#8 else readByte s.buf a) ∧
    (s.valid = false → exec .clear s = .next { s with status := .noImage })

/-- R94: FLIP, whole: its encoding; byte `k` of row `y` is what byte `k` of row `HEIGHT` − 1 − `y` was; nothing else changes. -/
def Obligations.FlipCommand : Prop :=
  ∀ (s : State) (a b c : Word), Memory.wf s.buf →
    decode (.command 0x05#8 a b c) = .instr .flip ∧
    (s.valid = true → ∃ m, exec .flip s = .next { s with buf := m, status := .ok } ∧
      (∀ y k, y < heightN s → k < bpr s →
        readByte m (y * bpr s + k) = readByte s.buf ((heightN s - 1 - y) * bpr s + k)) ∧
      ∀ a, len s ≤ a → readByte m a = readByte s.buf a) ∧
    (s.valid = false → exec .flip s = .next { s with status := .noImage })

/-- R94: the in-place loop of swaps and its end state are the same buffer. -/
def Obligations.FlipLoopReachesEndState : Prop :=
  ∀ s : State, Memory.wf s.buf → flipLoop s = flipRows s

/-- R95: two FLIPs in a row restore every byte. -/
def Obligations.FlipTwiceRestores : Prop :=
  ∀ s : State, Memory.wf s.buf → s.valid = true →
    ∃ t, exec .flip s = .next t ∧ exec .flip t = .next { s with status := .ok }

/-- R98: with `VALID` = 0, GET, SET, CLEAR, FLIP and ENCODE fail with `NoImage` and touch nothing (`RESULT` after the
GET is unspecified, R22). -/
def Obligations.NoImageFails : Prop :=
  ∀ (s : State) (x y c : Word) (rle : Bool), s.valid = false →
    exec (.set x y c) s = .next { s with status := .noImage } ∧
    exec .clear s = .next { s with status := .noImage } ∧
    exec .flip s = .next { s with status := .noImage } ∧
    exec (.encode rle) s = .next { s with status := .noImage } ∧
    ∃ r d, exec (.get x y) s = .next { s with status := .noImage, result := r, draws := d }

/-- R96: after an in-bounds SET, GET of the pixel returns the color with the missing slots forced to 0xFF, and GET of
any other pixel returns what it returned before; after an out-of-bounds SET every GET returns what it did. -/
def Obligations.SetThenGet : Prop :=
  ∀ (s : State) (x y c : Word), Memory.wf s.buf → FormatCode (bpp s) → s.valid = true →
    (InBounds s x y → ∃ t, exec (.set x y c) s = .next t ∧
      exec (.get x y) t = .next { t with
        result := c ||| (if bpp s = 1 then 0xFFFFFF00#32 else if bpp s = 3 then 0xFF000000#32 else 0#32) } ∧
      ∀ x' y', InBounds s x' y' → (x', y') ≠ (x, y) →
        ∃ r, exec (.get x' y') s = .next { s with result := r, status := .ok } ∧
          exec (.get x' y') t = .next { t with result := r }) ∧
    (¬ InBounds s x y → ∃ t, exec (.set x y c) s = .next t ∧
      ∀ x' y', InBounds s x' y' →
        ∃ r, exec (.get x' y') s = .next { s with result := r, status := .ok } ∧
          exec (.get x' y') t = .next { t with result := r })

/-- R83, R96: right after a NEW or a CLEAR, GET of any pixel returns 0x00000000 for BGRA, 0xFF000000 for BGR and
0xFFFFFF00 for Grayscale. -/
def Obligations.GetAfterConstruction : Prop :=
  ∀ (s t : State) (i : Instr) (x y : Word), ((∃ w h f, i = .new w h f) ∨ i = .clear) →
    exec i s = .next t → t.status = .ok → FormatCode (bpp t) → InBounds t x y →
    exec (.get x y) t = .next { t with
      result := if bpp t = 1 then 0xFFFFFF00#32 else if bpp t = 3 then 0xFF000000#32 else 0#32 }

/-- R47: NEW, GET, SET and CLEAR that succeed change nothing when repeated with the same operands. -/
def Obligations.CommandsIdempotent : Prop :=
  ∀ (s t : State) (i : Instr), Memory.wf s.buf →
    ((∃ w h f, i = .new w h f) ∨ (∃ x y, i = .get x y) ∨ (∃ x y c, i = .set x y c) ∨ i = .clear) →
    exec i s = .next t → t.status = .ok → exec i t = .next t

/-! ### The encode family -/

/-- R106, R107: ENCODE, whole: its encoding; the file it appends is the header and then the payload; its errors in order, each leaving
everything but `STATUS` as it was. -/
def Obligations.EncodeCommand : Prop :=
  ∀ (s : State) (rle : Bool) (a b c : Word),
    decode (.command 0x06#8 a b c) = .instr (.encode (decide (a ≠ 0#32))) ∧
    (s.valid = false → exec (.encode rle) s = .next { s with status := .noImage }) ∧
    (s.valid = true → (32767 < s.width.toInt ∨ 32767 < s.height.toInt) →
      exec (.encode rle) s = .next { s with status := .dimensionOverflow }) ∧
    (s.valid = true → s.width.toInt ≤ 32767 → s.height.toInt ≤ 32767 → s.ioFail = true →
      exec (.encode rle) s = .next { s with status := .ioError }) ∧
    (s.valid = true → s.width.toInt ≤ 32767 → s.height.toInt ≤ 32767 → s.ioFail = false →
      ∃ E, exec (.encode rle) s = .next { s with out := s.out ++ [E], status := .ok } ∧
        E.take 18 = hdrPack (buildHeader rle s) ∧
        E.drop 18 = if rle then rlePack s else readBytes s.buf 0 (len s))

/-- R108 to R111: the 18 bytes of the header ENCODE writes. -/
def Obligations.HeaderBytes : Prop :=
  ∀ (s : State) (rle : Bool), 0 < s.width.toInt → s.width.toInt ≤ 32767 → 0 < s.height.toInt →
    s.height.toInt ≤ 32767 → FormatCode (bpp s) →
    hdrPack (buildHeader rle s) =
      [0#8, 0#8, if bpp s = 1 then (if rle then 11#8 else 3#8) else (if rle then 10#8 else 2#8),
       0#8, 0#8, 0#8, 0#8, 0#8, 0#8, 0#8, 0#8, 0#8,
       BitVec.ofNat 8 (widthN s % 256), BitVec.ofNat 8 (widthN s / 256),
       BitVec.ofNat 8 (heightN s % 256), BitVec.ofNat 8 (heightN s / 256),
       BitVec.ofNat 8 (bpp s * 8), if bpp s = 4 then 0x28#8 else 0x20#8]

/-- R112: the raw file is 18 + `LEN` bytes, and byte 18 + `a` of it is `BUF[a]`. -/
def Obligations.RawFileLayout : Prop :=
  ∀ s : State, s.valid = true → s.width.toInt ≤ 32767 → s.height.toInt ≤ 32767 → s.ioFail = false →
    ∃ E, exec (.encode false) s = .next { s with out := s.out ++ [E], status := .ok } ∧
      E.length = 18 + len s ∧ ∀ a, a < len s → E[18 + a]? = some (readByte s.buf a)

/-- R124: ENCODE always answers, and never changes the image or `RESULT`. -/
def Obligations.EncodeKeepsImage : Prop :=
  ∀ (s : State) (rle : Bool), ∃ t, exec (.encode rle) s = .next t ∧ t.valid = s.valid ∧ t.width = s.width ∧
    t.height = s.height ∧ t.format = s.format ∧ t.buf = s.buf ∧ t.result = s.result

/-- R116: a replicate run ends at the first pixel that differs from the one before it, or at the bound; all its pixels
are equal. -/
def Obligations.RepRunLength : Prop :=
  ∀ (s : State) (p lim : Nat), 2 ≤ lim → pixel s p = pixel s (p + 1) →
    2 ≤ repLen s p lim ∧ repLen s p lim ≤ lim ∧
    (∀ j, 2 ≤ j → j < repLen s p lim → pixel s (p + (j - 1)) = pixel s (p + j)) ∧
    (repLen s p lim < lim → pixel s (p + (repLen s p lim - 1)) ≠ pixel s (p + repLen s p lim)) ∧
    ∀ j, j < repLen s p lim → pixel s (p + j) = pixel s p

/-- R117: a literal run ends before the first pixel, from index 1 on, that equals its successor inside the bound; the
last pixel of the bound joins uncompared. -/
def Obligations.LitRunLength : Prop :=
  ∀ (s : State) (p lim : Nat), 2 ≤ lim → pixel s p ≠ pixel s (p + 1) →
    1 ≤ litLen s p lim ∧ litLen s p lim ≤ lim ∧
    (∀ j, 1 ≤ j → j < litLen s p lim → j + 2 ≤ lim → pixel s (p + j) ≠ pixel s (p + (j + 1))) ∧
    (litLen s p lim < lim → litLen s p lim + 2 ≤ lim ∧
      pixel s (p + litLen s p lim) = pixel s (p + (litLen s p lim + 1)))

/-- R114, R115, R121 (b) to (f): the bound; the classification; and each chunk: at most 128 pixels, all in one row and
inside the image; a REP has at least two pixels, all equal; in a LIT no two neighbours are equal. -/
def Obligations.ChunkProperties : Prop :=
  ∀ (s : State) (p : Nat), p < npix s →
    (1 ≤ chunkLimit s p ∧ chunkLimit s p ≤ 128 ∧ chunkLimit s p ≤ widthN s - p % widthN s) ∧
    (chunkLimit s p = 1 → classify s p (chunkLimit s p) = (.lit, 1)) ∧
    (2 ≤ chunkLimit s p → pixel s p = pixel s (p + 1) →
      classify s p (chunkLimit s p) = (.rep, repLen s p (chunkLimit s p))) ∧
    (2 ≤ chunkLimit s p → pixel s p ≠ pixel s (p + 1) →
      classify s p (chunkLimit s p) = (.lit, litLen s p (chunkLimit s p))) ∧
    ∀ kind n, classify s p (chunkLimit s p) = (kind, n) →
      1 ≤ n ∧ n ≤ 128 ∧ p + n ≤ npix s ∧
      (∀ j, j < n → (p + j) / widthN s = p / widthN s) ∧
      (kind = .rep → 2 ≤ n ∧ ∀ j, j < n → pixel s (p + j) = pixel s p) ∧
      (kind = .lit → ∀ j, j + 1 < n → pixel s (p + j) ≠ pixel s (p + (j + 1)))

/-- R120: the one-loop form finds the same chunk as the classification of R115 to R117. -/
def Obligations.ClassifyLoopAgrees : Prop :=
  ∀ (s : State) (p lim : Nat), 1 ≤ lim → classifyLoop s p lim = classify s p lim

/-- `stream` is the chunks `cs`, back to back, from pixel `p` to the last pixel of the image: each is what the
classification finds at its first pixel, under that pixel's bound (R113 to R115), stays in that pixel's row (R121 (d)),
and is written as R118 says, its header byte and then its pixels' bytes or its one pixel's. -/
def PackedFrom (s : State) : Nat → List (ChunkKind × Nat) → List Byte → Prop
  | p, [], stream => p = npix s ∧ stream = []
  | p, (kind, n) :: cs, stream =>
    p < npix s ∧ classify s p (chunkLimit s p) = (kind, n) ∧ p % widthN s + n ≤ widthN s ∧
    ∃ rest, PackedFrom s (p + n) cs rest ∧
      stream = (match kind with
        | .lit => BitVec.ofNat 8 (n - 1) :: (List.range (n * bpp s)).map (fun k => readByte s.buf (p * bpp s + k))
        | .rep => BitVec.ofNat 8 (128 + (n - 1)) :: (List.range (bpp s)).map (fun k => readByte s.buf (p * bpp s + k)))
        ++ rest

/-- R113, R118, R119, R121 (d) and (g), R122: the stream the packer returns is its chunks from pixel 0 on, one after the
other and ending exactly at `npix`; their counts sum to `npix`, they are at most `npix`, and the stream is at most
`LEN + npix` bytes. -/
def Obligations.PackedStream : Prop :=
  ∀ s : State,
    (∃ cs, PackedFrom s 0 cs (rlePack s) ∧ (cs.map (fun c => c.2)).sum = npix s ∧ cs.length ≤ npix s) ∧
    (rlePack s).length ≤ len s + npix s

/-! ### The decode family -/

/-- R134: the header survives packing and unpacking, and 18 bytes survive unpacking and packing. -/
def Obligations.HeaderRoundTrip : Prop :=
  (∀ h : Header, hdrUnpack (hdrPack h) = h) ∧
  ∀ b : List Byte, b.length = 18 → hdrPack (hdrUnpack b) = b

/-- R143: LIT of `n` pixels stores the next `n * bpp` bytes of the stream at pixel `count`, moves the cursor and the
count, and changes nothing else. -/
def Obligations.LitStoresPixels : Prop :=
  ∀ (s : State) (t : Transfer) (n : Nat), Memory.wf s.buf → s.transfer = some t → t.count + n ≤ npix s →
    t.pos + n * bpp s ≤ s.file.length →
    ∃ m, exec (.lit n) s =
        .next { s with buf := m, transfer := some { t with pos := t.pos + n * bpp s, count := t.count + n } } ∧
      ∀ a, readByte m a =
        if t.count * bpp s ≤ a ∧ a < (t.count + n) * bpp s then s.file.getD (t.pos + (a - t.count * bpp s)) 0#8
        else readByte s.buf a

/-- R144: REP of `n` pixels stores the next pixel of the stream `n` times from pixel `count` on, moves the cursor by one
pixel and the count by `n`, and changes nothing else. -/
def Obligations.RepRepeatsPixel : Prop :=
  ∀ (s : State) (t : Transfer) (n : Nat), Memory.wf s.buf → s.transfer = some t → t.count + n ≤ npix s →
    t.pos + bpp s ≤ s.file.length →
    ∃ m, exec (.rep n) s =
        .next { s with buf := m, transfer := some { t with pos := t.pos + bpp s, count := t.count + n } } ∧
      ∀ a, readByte m a =
        if t.count * bpp s ≤ a ∧ a < (t.count + n) * bpp s then
          s.file.getD (t.pos + (a - t.count * bpp s) % bpp s) 0#8
        else readByte s.buf a

/-- R142: a chunk that would pass `npix` fails with `OverrunError`, whatever is left of the stream; the slot is invalid
and unspecified (R150), and nothing else changes. -/
def Obligations.OverrunStopsDecode : Prop :=
  ∀ (s : State) (t : Transfer) (n : Nat) (i : Instr), (i = .lit n ∨ i = .rep n) → s.transfer = some t →
    npix s < t.count + n →
    ∃ w h f m d, exec i s = .next { s with
      status := .overrunError, valid := false, width := w, height := h, format := f, buf := m, transfer := none,
      draws := d }

/-- R146: a chunk whose payload the stream does not hold, and a chunk loop that finds no header byte while pixels are
missing, fail with `IoError`; the slot is invalid and unspecified. That the loop's round is a step is the model's choice
(notes/assumptions/7.md). -/
def Obligations.ShortChunkIsIoError : Prop :=
  ∀ (s : State) (t : Transfer), s.transfer = some t →
    (∀ (n : Nat) (i : Instr), t.count + n ≤ npix s →
      ((i = .lit n ∧ s.file.length < t.pos + n * bpp s) ∨ (i = .rep n ∧ s.file.length < t.pos + bpp s)) →
      ∃ w h f m d, exec i s = .next { s with
        status := .ioError, valid := false, width := w, height := h, format := f, buf := m, transfer := none,
        draws := d }) ∧
    (t.phase = .chunks → t.count < npix s → s.file.length ≤ t.pos →
      ∃ w h f m d, step s = .next { s with
        status := .ioError, valid := false, width := w, height := h, format := f, buf := m, transfer := none,
        draws := d, file := [], ioFail := false })

/-- R138, R139, R146: data-type codes 2 and 3 alike store the next `LEN` bytes of the stream as the buffer, or fail with
`IoError` where fewer remain. -/
def Obligations.RawPayloadFillsBuffer : Prop :=
  ∀ (s : State) (t : Transfer) (i : Instr), (i = .dtRawColor ∨ i = .dtRawGray) → Memory.wf s.buf →
    s.transfer = some t →
    (t.pos + len s ≤ s.file.length →
      ∃ m, exec i s =
          .next { s with buf := m, transfer := some { t with pos := t.pos + len s, phase := .finished } } ∧
        ∀ a, readByte m a = if a < len s then s.file.getD (t.pos + a) 0#8 else readByte s.buf a) ∧
    (s.file.length < t.pos + len s →
      ∃ w h f m d, exec i s = .next { s with
        status := .ioError, valid := false, width := w, height := h, format := f, buf := m, transfer := none,
        draws := d })

/-- R138, R140: data-type codes 10 and 11 alike start the chunk loop at pixel 0 and change nothing else. -/
def Obligations.RleCodesStartChunkLoop : Prop :=
  ∀ (s : State) (t : Transfer) (i : Instr), (i = .dtRleColor ∨ i = .dtRleGray) → s.transfer = some t →
    exec i s = .next { s with transfer := some { t with count := 0, phase := .chunks } }

/-- The model's choice (notes/assumptions/11.md), from R39 ("used only inside DECODE"): the instructions of a stream
stop where no DECODE is in progress. -/
def Obligations.StreamInstructionsNeedDecode : Prop :=
  ∀ (s : State) (n : Nat), AtRest s →
    exec (.lit n) s = .fault .noTransfer ∧ exec (.rep n) s = .fault .noTransfer ∧
    exec .dtRawColor s = .fault .noTransfer ∧ exec .dtRawGray s = .fault .noTransfer ∧
    exec .dtRleColor s = .fault .noTransfer ∧ exec .dtRleGray s = .fault .noTransfer

/-- The header fields of a file that DECODE uses, straight from its bytes (R58, R62, R135). -/
def fileFormat (file : List Byte) : Nat := (file.getD 16 0#8).toNat / 8
/-- The width in a file's header, an i16 (R62). -/
def fileWidth (file : List Byte) : Int := (u16le (file.getD 12 0#8) (file.getD 13 0#8)).toInt
/-- The height in a file's header, an i16 (R62). -/
def fileHeight (file : List Byte) : Int := (u16le (file.getD 14 0#8) (file.getD 15 0#8)).toInt
/-- A header DECODE accepts under `cap` (R135 to R137). -/
abbrev fileAccepted (cap : Nat) (file : List Byte) : Prop :=
  18 ≤ file.length ∧ FormatCode (fileFormat file) ∧ 0 < fileWidth file ∧ 0 < fileHeight file ∧
    fileHeight file * fileWidth file * (fileFormat file : Int) ≤ (cap : Int)

/-- The pixel count a file's header declares (R12). -/
def filePixels (file : List Byte) : Nat := (fileWidth file).toNat * (fileHeight file).toNat

/-- A chunk of a stream: its kind, its pixel count and its payload (R65 to R67). -/
abbrev StreamChunk := ChunkKind × Nat × List Byte
/-- A chunk has 1 to 128 pixels; a LIT carries them all, a REP carries one. -/
abbrev streamChunkOk (n : Nat) (c : StreamChunk) : Prop :=
  ChunkCount c.2.1 ∧ c.2.2.length = match c.1 with | .lit => c.2.1 * n | .rep => n
/-- A chunk's bytes in the stream (R66, R67). -/
def streamChunkBytes (c : StreamChunk) : List Byte :=
  (match c.1 with | .lit => BitVec.ofNat 8 (c.2.1 - 1) | .rep => BitVec.ofNat 8 (128 + (c.2.1 - 1))) :: c.2.2
/-- The bytes of the pixels a chunk stands for (R143, R144). -/
def streamChunkPixels (c : StreamChunk) : List Byte :=
  match c.1 with | .lit => c.2.2 | .rep => (List.replicate c.2.1 c.2.2).flatten

/-- DECODE ends with the error `e` and an invalid slot (R150). -/
abbrev DecodeFails (s : State) (e : Status) : Prop :=
  ∃ t, exec .decode s = .next t ∧ t.status = e ∧ t.valid = false

/-- R130, R132, R133, R135 to R140, R142, R146, R170: DECODE's tests in order, to the end. After the dispatch: a raw
payload that is too short; in an RLE payload, after any whole chunks `cs` that leave pixels missing, no header byte, a
chunk that would pass the pixel count (whatever is left of the stream), a chunk whose payload is cut short. -/
def Obligations.DecodeTestsInOrder : Prop :=
  ∀ s : State,
    (s.ioFail = true → DecodeFails s .ioError) ∧
    (s.ioFail = false → s.file.length < 18 → DecodeFails s .ioError) ∧
    (s.ioFail = false → 18 ≤ s.file.length → ¬ FormatCode (fileFormat s.file) → DecodeFails s .unsupportedFormat) ∧
    (s.ioFail = false → 18 ≤ s.file.length → FormatCode (fileFormat s.file) →
      (fileWidth s.file ≤ 0 ∨ fileHeight s.file ≤ 0) → DecodeFails s .invalidDimensions) ∧
    (s.ioFail = false → 18 ≤ s.file.length → FormatCode (fileFormat s.file) → 0 < fileWidth s.file →
      0 < fileHeight s.file →
      (s.cfg.bufCap : Int) < fileHeight s.file * fileWidth s.file * (fileFormat s.file : Int) →
      DecodeFails s .capacityExceeded) ∧
    (s.ioFail = false → fileAccepted s.cfg.bufCap s.file → (s.file.getD 2 0#8).toNat ∉ [2, 3, 10, 11] →
      DecodeFails s .unsupportedDataType) ∧
    (s.ioFail = false → fileAccepted s.cfg.bufCap s.file →
      ((s.file.getD 2 0#8).toNat = 2 ∨ (s.file.getD 2 0#8).toNat = 3) →
      s.file.length < 18 + (fileHeight s.file).toNat * (fileWidth s.file).toNat * fileFormat s.file →
      DecodeFails s .ioError) ∧
    (s.ioFail = false → fileAccepted s.cfg.bufCap s.file →
      ((s.file.getD 2 0#8).toNat = 10 ∨ (s.file.getD 2 0#8).toNat = 11) →
      ∀ (cs : List StreamChunk) (rest : List Byte), (∀ c ∈ cs, streamChunkOk (fileFormat s.file) c) →
        (cs.map (fun c => c.2.1)).sum < filePixels s.file →
        s.file.drop 18 = (cs.map streamChunkBytes).flatten ++ rest →
        (rest = [] → DecodeFails s .ioError) ∧
        ∀ (h : Byte) (tail : List Byte), rest = h :: tail →
          (filePixels s.file < (cs.map (fun c => c.2.1)).sum + (h.toNat % 128 + 1) → DecodeFails s .overrunError) ∧
          ((cs.map (fun c => c.2.1)).sum + (h.toNat % 128 + 1) ≤ filePixels s.file →
            rest.length < chunkSize (fileFormat s.file) h → DecodeFails s .ioError))

/-- R139, R148, R149: DECODE of a raw file: the geometry is the header's, row `y` of the buffer is row `y` of the payload
where the descriptor's 0x20 bit is set and row `HEIGHT` − 1 − `y` where it is clear, and nothing else changes. -/
def Obligations.DecodeRawFile : Prop :=
  ∀ s : State, s.ioFail = false → fileAccepted s.cfg.bufCap s.file →
    ((s.file.getD 2 0#8).toNat = 2 ∨ (s.file.getD 2 0#8).toNat = 3) →
    18 + (fileHeight s.file).toNat * (fileWidth s.file).toNat * fileFormat s.file ≤ s.file.length →
    ∃ w h f m, exec .decode s = .next { s with
        valid := true, width := w, height := h, format := f, buf := m, status := .ok, transfer := none } ∧
      w.toInt = fileWidth s.file ∧ h.toInt = fileHeight s.file ∧ f.toNat = fileFormat s.file ∧
      ∀ y k, y < (fileHeight s.file).toNat → k < (fileWidth s.file).toNat * fileFormat s.file →
        readByte m (y * ((fileWidth s.file).toNat * fileFormat s.file) + k) =
          s.file.getD (18 + (if (s.file.getD 17 0#8).getLsbD 5 then y else (fileHeight s.file).toNat - 1 - y) *
            ((fileWidth s.file).toNat * fileFormat s.file) + k) 0#8

/-- R64, R69, R140 to R145, R147 to R149, R155: DECODE of an RLE file: whatever the chunks are, if their counts sum to
the pixel count, the buffer is the pixels they stand for, in order, the rows reversed where the descriptor's 0x20 bit is
clear; bytes after the last chunk have no effect, and nothing but the slot and `STATUS` changes. -/
def Obligations.DecodeRleFile : Prop :=
  ∀ (s : State) (cs : List StreamChunk) (extra : List Byte), s.ioFail = false → fileAccepted s.cfg.bufCap s.file →
    ((s.file.getD 2 0#8).toNat = 10 ∨ (s.file.getD 2 0#8).toNat = 11) →
    (∀ c ∈ cs, streamChunkOk (fileFormat s.file) c) →
    (cs.map (fun c => c.2.1)).sum = filePixels s.file →
    s.file.drop 18 = (cs.map streamChunkBytes).flatten ++ extra →
    ∃ w h f m, exec .decode s = .next { s with
        valid := true, width := w, height := h, format := f, buf := m, status := .ok, transfer := none } ∧
      w.toInt = fileWidth s.file ∧ h.toInt = fileHeight s.file ∧ f.toNat = fileFormat s.file ∧
      ∀ y k, y < (fileHeight s.file).toNat → k < (fileWidth s.file).toNat * fileFormat s.file →
        readByte m (y * ((fileWidth s.file).toNat * fileFormat s.file) + k) =
          (cs.map streamChunkPixels).flatten.getD
            ((if (s.file.getD 17 0#8).getLsbD 5 then y else (fileHeight s.file).toNat - 1 - y) *
              ((fileWidth s.file).toNat * fileFormat s.file) + k) 0#8

/-- R149, R150, R189: DECODE always answers and leaves no DECODE in progress; it succeeds exactly when the slot is valid
afterwards; apart from the slot and `STATUS` nothing changes. -/
def Obligations.DecodeOutcome : Prop :=
  ∀ s : State, ∃ v w h f m e d, exec .decode s = .next { s with
      valid := v, width := w, height := h, format := f, buf := m, status := e, transfer := none, draws := d } ∧
    (e = .ok ↔ v = true)

/-- R156: DECODE's outcome depends on the file, `io_fail` and `BUF_CAP` only: not on the old slot, nor on any operand
register. -/
def Obligations.DecodeDependsOnFileOnly : Prop :=
  ∀ s u : State, s.cfg = u.cfg → s.file = u.file → s.ioFail = u.ioFail →
    ∃ s' u', exec .decode s = .next s' ∧ exec .decode u = .next u' ∧ s'.status = u'.status ∧ s'.valid = u'.valid ∧
      (s'.status = .ok → s'.width = u'.width ∧ s'.height = u'.height ∧ s'.format = u'.format ∧ s'.buf = u'.buf)

/-- R147: bytes after the payload change nothing: a DECODE that succeeds, succeeds exactly as if they were absent. -/
def Obligations.TrailingBytesIgnored : Prop :=
  ∀ (s t : State) (extra : List Byte), exec .decode s = .next t → t.status = .ok →
    exec .decode { s with file := s.file ++ extra } = .next { t with file := s.file ++ extra }

/-- R151: encoding raw and decoding the file, in any state of a block of the same capacity, restores the image. -/
def Obligations.RoundTripRaw : Prop :=
  ∀ s : State, Inv s → s.valid = true → s.width.toInt ≤ 32767 → s.height.toInt ≤ 32767 → s.ioFail = false →
    ∃ E, exec (.encode false) s = .next { s with out := s.out ++ [E], status := .ok } ∧
      ∀ u : State, u.cfg = s.cfg → u.file = E → u.ioFail = false →
        ∃ v, exec .decode u = .next v ∧ v.status = .ok ∧ v.valid = true ∧ v.width = s.width ∧ v.height = s.height ∧
          v.format = s.format ∧ v.buf = s.buf

/-- R152: encoding with RLE and decoding the file, in any state of a block of the same capacity, restores the image. -/
def Obligations.RoundTripRle : Prop :=
  ∀ s : State, Inv s → s.valid = true → s.width.toInt ≤ 32767 → s.height.toInt ≤ 32767 → s.ioFail = false →
    ∃ E, exec (.encode true) s = .next { s with out := s.out ++ [E], status := .ok } ∧
      ∀ u : State, u.cfg = s.cfg → u.file = E → u.ioFail = false →
        ∃ v, exec .decode u = .next v ∧ v.status = .ok ∧ v.valid = true ∧ v.width = s.width ∧ v.height = s.height ∧
          v.format = s.format ∧ v.buf = s.buf

/-- R46, R130, R154: the whole DECODE is what its steps come to: from the state in which its stream is read next, at
most `npix` + 2 steps of the machine reach the state the command answers, its streams closed. That a DECODE has steps of
its own is the model's choice (notes/assumptions/7.md). -/
def Obligations.DecodeIsItsSteps : Prop :=
  ∀ s : State, (openDecode s).transfer.isSome = true →
    ∃ k, k ≤ npix (openDecode s) + 2 ∧
      Host.Core.run Sys2Proof.core k (openDecode s) = mapNext settle (exec .decode s)
end

