-- ==== Sys2Proof/Laws/Memory.lean ====
section
/-!
SUPPORT. The laws of the pixel buffer's memory: reading after writing, the canonical form, and that canonical memories
with the same bytes are equal.
-/

namespace Sys2Proof.Laws

open Sys2Proof Sys2Proof.Machine

/-! ### One byte -/

@[simp] theorem readByte_nil (a : Nat) : readByte [] a = unlisted := rfl

/-- An offset below every listed one is unlisted. -/
theorem readByte_below {m : Memory} {a : Nat} (h : ∀ c ∈ m, a < c.1) : readByte m a = unlisted := by
  induction m with
  | nil => rfl
  | cons c m ih =>
    have hc := h c (by simp)
    simp only [readByte]
    rw [if_neg (by omega)]
    exact ih fun d hd => h d (by simp [hd])

/-- Reading after writing one byte, in a memory whose offsets rise. -/
theorem readByte_writeByte {m : Memory} (hm : m.Pairwise fun p q => p.1 < q.1) (a : Nat) (b : Byte) (x : Nat) :
    readByte (writeByte m a b) x = if x = a then b else readByte m x := by
  induction m with
  | nil =>
    by_cases hb : b = unlisted <;> by_cases hx : x = a <;> simp [writeByte, readByte, hb, hx, eq_comm]
    intro h; exact absurd h.symm hx
  | cons c m ih =>
    obtain ⟨k, v⟩ := c
    have hk : ∀ d ∈ m, k < d.1 := fun d hd => (List.pairwise_cons.1 hm).1 d hd
    have ih := ih (List.pairwise_cons.1 hm).2
    unfold writeByte
    split
    · rename_i hak
      split
      · rename_i hb
        split
        · rename_i hx
          subst hx hb
          exact readByte_below fun d hd => by
            rcases List.mem_cons.1 hd with h | h
            · simpa [h] using hak
            · exact hak.trans (hk d h)
        · rfl
      · by_cases hx : x = a
        · simp [readByte, hx]
        · simp [readByte, hx, Ne.symm hx]
    · split
      · rename_i hak
        subst hak
        split
        · rename_i hb
          split
          · rename_i hx; subst hx hb; exact readByte_below hk
          · rename_i hx; simp [readByte, Ne.symm hx]
        · by_cases hx : x = a
          · simp [readByte, hx]
          · simp [readByte, hx, Ne.symm hx]
      · rename_i h1 h2
        simp only [readByte, ih]
        by_cases hx : k = x
        · subst hx; simp [Ne.symm h2]
        · simp [hx]

/-- The listed offsets after a write. -/
theorem mem_writeByte {m : Memory} {a : Nat} {b : Byte} {c : Host.Cell} (h : c ∈ writeByte m a b) :
    c ∈ m ∨ c = (a, b) := by
  induction m with
  | nil =>
    unfold writeByte at h
    split at h <;> simp_all
  | cons d m ih =>
    obtain ⟨k, v⟩ := d
    unfold writeByte at h
    split at h
    · split at h
      · exact .inl h
      · rcases List.mem_cons.1 h with h | h
        · exact .inr h
        · exact .inl h
    · split at h
      · split at h
        · exact .inl (List.mem_cons_of_mem _ h)
        · rcases List.mem_cons.1 h with h | h
          · exact .inr h
          · exact .inl (List.mem_cons_of_mem _ h)
      · rcases List.mem_cons.1 h with h | h
        · exact .inl (h ▸ List.mem_cons_self)
        · exact (ih h).imp_left (List.mem_cons_of_mem _)

theorem wf_nil : Memory.wf [] := ⟨List.Pairwise.nil, fun _ h => absurd h List.not_mem_nil⟩

/-- Writing a byte keeps the canonical form. -/
theorem wf_writeByte {m : Memory} (hm : Memory.wf m) (a : Nat) (b : Byte) : Memory.wf (writeByte m a b) := by
  refine ⟨?_, ?_⟩
  · have hp := hm.1
    clear hm
    induction m with
    | nil => unfold writeByte; split <;> simp
    | cons c m ih =>
      obtain ⟨k, v⟩ := c
      have hk := (List.pairwise_cons.1 hp).1
      have hp' := (List.pairwise_cons.1 hp).2
      unfold writeByte
      split
      · rename_i hak
        split
        · exact hp
        · refine List.pairwise_cons.2 ⟨fun d hd => ?_, hp⟩
          rcases List.mem_cons.1 hd with h | h
          · simpa [h] using hak
          · exact hak.trans (hk d h)
      · split
        · rename_i hak
          subst hak
          split
          · exact hp'
          · exact List.pairwise_cons.2 ⟨hk, hp'⟩
        · refine List.pairwise_cons.2 ⟨fun d hd => ?_, ih hp'⟩
          rcases mem_writeByte hd with h | h
          · exact hk d h
          · subst h; show k < a; omega
  · intro c hc
    have hn := hm.2
    clear hm
    induction m with
    | nil =>
      unfold writeByte at hc
      split at hc
      · simp at hc
      · rename_i hb; simp only [List.mem_singleton] at hc; simpa [hc] using hb
    | cons d m ih =>
      obtain ⟨k, v⟩ := d
      have hm' : ∀ c ∈ m, c.2 ≠ unlisted := fun c h => hn c (List.mem_cons_of_mem _ h)
      unfold writeByte at hc
      split at hc
      · split at hc
        · exact hn c hc
        · rename_i hb
          rcases List.mem_cons.1 hc with h | h
          · simpa [h] using hb
          · exact hn c h
      · split at hc
        · split at hc
          · exact hm' c hc
          · rename_i hb
            rcases List.mem_cons.1 hc with h | h
            · simpa [h] using hb
            · exact hm' c h
        · rcases List.mem_cons.1 hc with h | h
          · exact hn c (h ▸ List.mem_cons_self)
          · exact ih h hm'

/-! ### Several bytes -/

@[simp] theorem length_readBytes (m : Memory) (a n : Nat) : (readBytes m a n).length = n := by
  induction n generalizing a with
  | zero => rfl
  | succ n ih => simp [readBytes, ih]

@[simp] theorem getElem_readBytes (m : Memory) (a n i : Nat) (h : i < (readBytes m a n).length) :
    (readBytes m a n)[i] = readByte m (a + i) := by
  induction n generalizing a i with
  | zero => simp [readBytes] at h
  | succ n ih =>
    cases i with
    | zero => rfl
    | succ i =>
      simp only [readBytes, List.getElem_cons_succ, ih]
      congr 1; omega

/-- `MemRead` byte by byte. -/
theorem readBytes_eq_map (m : Memory) (a n : Nat) : readBytes m a n = (List.range n).map fun k => readByte m (a + k) := by
  apply List.ext_getElem (by simp)
  intro i h1 h2
  simp

/-- Reading `p + q` bytes is reading `p` and then `q`. -/
theorem readBytes_add (m : Memory) (a p q : Nat) : readBytes m a (p + q) = readBytes m a p ++ readBytes m (a + p) q := by
  induction p generalizing a with
  | zero => simp [readBytes]
  | succ p ih =>
    rw [show p + 1 + q = (p + q) + 1 by omega, readBytes, readBytes, ih, List.cons_append,
      show a + 1 + p = a + (p + 1) by omega]

theorem wf_writeBytes {m : Memory} (hm : Memory.wf m) (a : Nat) (bs : List Byte) : Memory.wf (writeBytes m a bs) := by
  induction bs generalizing m a with
  | nil => exact hm
  | cons b bs ih => exact ih (wf_writeByte hm a b) (a + 1)

/-- Reading after writing a sequence of bytes, in a memory whose offsets rise. -/
theorem readByte_writeBytes {m : Memory} (hm : Memory.wf m) (a : Nat) (bs : List Byte) (x : Nat) :
    readByte (writeBytes m a bs) x = if a ≤ x ∧ x < a + bs.length then bs.getD (x - a) unlisted else readByte m x := by
  induction bs generalizing m a with
  | nil => rw [if_neg (by simp)]; rfl
  | cons b bs ih =>
    rw [writeBytes, ih (wf_writeByte hm a b), readByte_writeByte hm.1]
    by_cases hx : x = a
    · subst hx; simp
    · rw [if_neg hx]
      by_cases h : a ≤ x ∧ x < a + (b :: bs).length
      · simp only [List.length_cons] at h
        rw [if_pos (by omega), if_pos (by simpa using h)]
        rw [show x - a = (x - (a + 1)) + 1 by omega]; simp
      · rw [if_neg h, if_neg (by simp only [List.length_cons] at h; omega)]

theorem mem_writeBytes {m : Memory} {a : Nat} {bs : List Byte} {c : Host.Cell} (h : c ∈ writeBytes m a bs) :
    c ∈ m ∨ (a ≤ c.1 ∧ c.1 < a + bs.length) := by
  induction bs generalizing m a with
  | nil => exact .inl h
  | cons b bs ih =>
    rcases ih h with h | h
    · rcases mem_writeByte h with h | h
      · exact .inl h
      · subst h; right; simp
    · right; simp only [List.length_cons]; omega

/-- Reading back what was written. -/
theorem readBytes_writeBytes {m : Memory} (hm : Memory.wf m) (a : Nat) (bs : List Byte) :
    readBytes (writeBytes m a bs) a bs.length = bs := by
  apply List.ext_getElem (by simp)
  intro i h1 h2
  rw [getElem_readBytes, readByte_writeBytes hm, if_pos (by omega)]
  simp [List.getD_eq_getElem?_getD, h2]

/-! ### The zero fill -/

theorem wf_zeroFill {m : Memory} (hm : Memory.wf m) (n : Nat) : Memory.wf (zeroFill m n) :=
  ⟨hm.1.filter _, fun c hc => hm.2 c (List.mem_filter.1 hc).1⟩

theorem mem_zeroFill {m : Memory} {n : Nat} {c : Host.Cell} : c ∈ zeroFill m n ↔ c ∈ m ∧ n ≤ c.1 := by
  simp [zeroFill]

theorem readByte_zeroFill (m : Memory) (n x : Nat) :
    readByte (zeroFill m n) x = if x < n then unlisted else readByte m x := by
  induction m with
  | nil => simp [zeroFill, readByte]
  | cons c m ih =>
    obtain ⟨k, v⟩ := c
    unfold zeroFill at ih ⊢
    by_cases hk : n ≤ k
    · rw [List.filter_cons_of_pos (by simpa using hk)]
      simp only [readByte, ih]
      by_cases hx : k = x
      · subst hx; simp [Nat.not_lt.2 hk]
      · simp [hx]
    · rw [List.filter_cons_of_neg (by simpa using hk), ih]
      by_cases hx : x < n
      · simp [hx]
      · rw [if_neg hx, if_neg hx, readByte, if_neg (by omega)]

/-! ### Canonical memories are determined by their bytes -/

/-- A listed offset reads as its own byte. -/
theorem readByte_of_mem {m : Memory} (hm : m.Pairwise fun p q => p.1 < q.1) {c : Host.Cell} (hc : c ∈ m) :
    readByte m c.1 = c.2 := by
  induction m with
  | nil => simp at hc
  | cons d m ih =>
    obtain ⟨k, v⟩ := d
    have hp := List.pairwise_cons.1 hm
    rcases List.mem_cons.1 hc with h | h
    · subst h; simp [readByte]
    · have : k < c.1 := hp.1 c h
      rw [readByte, if_neg (by omega)]; exact ih hp.2 h

/-- An offset that does not read as unlisted is listed. -/
theorem mem_of_readByte {m : Memory} {a : Nat} (h : readByte m a ≠ unlisted) : (a, readByte m a) ∈ m := by
  induction m with
  | nil => simp [readByte] at h
  | cons d m ih =>
    obtain ⟨k, v⟩ := d
    by_cases hk : k = a
    · subst hk; simp [readByte]
    · rw [readByte, if_neg hk] at h ⊢
      exact List.mem_cons_of_mem _ (ih h)

/-- Two canonical memories with the same bytes are the same list. -/
theorem memory_ext {m n : Memory} (hm : Memory.wf m) (hn : Memory.wf n) (h : ∀ a, readByte m a = readByte n a) :
    m = n := by
  have key : ∀ {p q : Memory}, Memory.wf p → (∀ a, readByte p a = readByte q a) → ∀ c ∈ p, c ∈ q := by
    intro p q hp hpq c hc
    have e := readByte_of_mem hp.1 hc
    have ne : readByte q c.1 ≠ unlisted := by rw [← hpq, e]; exact hp.2 c hc
    have := mem_of_readByte ne
    rwa [← hpq, e] at this
  have nodup : ∀ {p : Memory}, Memory.wf p → p.Nodup := fun hp =>
    hp.1.imp fun {a b} hab he => by rw [he] at hab; exact lt_irrefl _ hab
  have hperm : m.Perm n :=
    (List.perm_ext_iff_of_nodup (nodup hm) (nodup hn)).2 fun c =>
      ⟨key hm h c, key hn (fun a => (h a).symm) c⟩
  exact hperm.eq_of_pairwise (fun a b _ _ hab hba => absurd (hab.trans hba) (lt_irrefl _)) hm.1 hn.1

end Sys2Proof.Laws
end

