-- ==== Sys2Proof/Laws/State.lean ====
section
/-!
SUPPORT. What each named update of the state does to each field: one lemma per field per update, so that no proof
unfolds a record update.
-/

namespace Sys2Proof.Laws

open Sys2Proof Sys2Proof.Machine

variable (s : State)

/-! ### succeed -/

@[simp] theorem succeed_cfg : (succeed s).cfg = s.cfg := rfl
@[simp] theorem succeed_valid : (succeed s).valid = s.valid := rfl
@[simp] theorem succeed_width : (succeed s).width = s.width := rfl
@[simp] theorem succeed_height : (succeed s).height = s.height := rfl
@[simp] theorem succeed_format : (succeed s).format = s.format := rfl
@[simp] theorem succeed_buf : (succeed s).buf = s.buf := rfl
@[simp] theorem succeed_cmd : (succeed s).cmd = s.cmd := rfl
@[simp] theorem succeed_arg0 : (succeed s).arg0 = s.arg0 := rfl
@[simp] theorem succeed_arg1 : (succeed s).arg1 = s.arg1 := rfl
@[simp] theorem succeed_arg2 : (succeed s).arg2 = s.arg2 := rfl
@[simp] theorem succeed_status : (succeed s).status = .ok := rfl
@[simp] theorem succeed_result : (succeed s).result = s.result := rfl
@[simp] theorem succeed_out : (succeed s).out = s.out := rfl
@[simp] theorem succeed_file : (succeed s).file = s.file := rfl
@[simp] theorem succeed_ioFail : (succeed s).ioFail = s.ioFail := rfl
@[simp] theorem succeed_transfer : (succeed s).transfer = s.transfer := rfl
@[simp] theorem succeed_script : (succeed s).script = s.script := rfl
@[simp] theorem succeed_draws : (succeed s).draws = s.draws := rfl

/-! ### raise nothing -/

@[simp] theorem raise_nothing_cfg (e : Status) : (raise .nothing e s).cfg = s.cfg := rfl
@[simp] theorem raise_nothing_valid (e : Status) : (raise .nothing e s).valid = s.valid := rfl
@[simp] theorem raise_nothing_width (e : Status) : (raise .nothing e s).width = s.width := rfl
@[simp] theorem raise_nothing_height (e : Status) : (raise .nothing e s).height = s.height := rfl
@[simp] theorem raise_nothing_format (e : Status) : (raise .nothing e s).format = s.format := rfl
@[simp] theorem raise_nothing_buf (e : Status) : (raise .nothing e s).buf = s.buf := rfl
@[simp] theorem raise_nothing_cmd (e : Status) : (raise .nothing e s).cmd = s.cmd := rfl
@[simp] theorem raise_nothing_arg0 (e : Status) : (raise .nothing e s).arg0 = s.arg0 := rfl
@[simp] theorem raise_nothing_arg1 (e : Status) : (raise .nothing e s).arg1 = s.arg1 := rfl
@[simp] theorem raise_nothing_arg2 (e : Status) : (raise .nothing e s).arg2 = s.arg2 := rfl
@[simp] theorem raise_nothing_status (e : Status) : (raise .nothing e s).status = e := rfl
@[simp] theorem raise_nothing_result (e : Status) : (raise .nothing e s).result = s.result := rfl
@[simp] theorem raise_nothing_out (e : Status) : (raise .nothing e s).out = s.out := rfl
@[simp] theorem raise_nothing_file (e : Status) : (raise .nothing e s).file = s.file := rfl
@[simp] theorem raise_nothing_ioFail (e : Status) : (raise .nothing e s).ioFail = s.ioFail := rfl
@[simp] theorem raise_nothing_transfer (e : Status) : (raise .nothing e s).transfer = s.transfer := rfl
@[simp] theorem raise_nothing_script (e : Status) : (raise .nothing e s).script = s.script := rfl
@[simp] theorem raise_nothing_draws (e : Status) : (raise .nothing e s).draws = s.draws := rfl

/-! ### raise result -/

@[simp] theorem raise_result_cfg (e : Status) : (raise .result e s).cfg = s.cfg := rfl
@[simp] theorem raise_result_valid (e : Status) : (raise .result e s).valid = s.valid := rfl
@[simp] theorem raise_result_width (e : Status) : (raise .result e s).width = s.width := rfl
@[simp] theorem raise_result_height (e : Status) : (raise .result e s).height = s.height := rfl
@[simp] theorem raise_result_format (e : Status) : (raise .result e s).format = s.format := rfl
@[simp] theorem raise_result_buf (e : Status) : (raise .result e s).buf = s.buf := rfl
@[simp] theorem raise_result_cmd (e : Status) : (raise .result e s).cmd = s.cmd := rfl
@[simp] theorem raise_result_arg0 (e : Status) : (raise .result e s).arg0 = s.arg0 := rfl
@[simp] theorem raise_result_arg1 (e : Status) : (raise .result e s).arg1 = s.arg1 := rfl
@[simp] theorem raise_result_arg2 (e : Status) : (raise .result e s).arg2 = s.arg2 := rfl
@[simp] theorem raise_result_status (e : Status) : (raise .result e s).status = e := rfl
@[simp] theorem raise_result_result (e : Status) : (raise .result e s).result = Config.freeResult s.draws := rfl
@[simp] theorem raise_result_out (e : Status) : (raise .result e s).out = s.out := rfl
@[simp] theorem raise_result_file (e : Status) : (raise .result e s).file = s.file := rfl
@[simp] theorem raise_result_ioFail (e : Status) : (raise .result e s).ioFail = s.ioFail := rfl
@[simp] theorem raise_result_transfer (e : Status) : (raise .result e s).transfer = s.transfer := rfl
@[simp] theorem raise_result_script (e : Status) : (raise .result e s).script = s.script := rfl
@[simp] theorem raise_result_draws (e : Status) : (raise .result e s).draws = s.draws + 1 := rfl

/-! ### raise image -/

@[simp] theorem raise_image_cfg (e : Status) : (raise .image e s).cfg = s.cfg := rfl
@[simp] theorem raise_image_valid (e : Status) : (raise .image e s).valid = false := rfl
@[simp] theorem raise_image_width (e : Status) : (raise .image e s).width = Config.freeWidth s.draws := rfl
@[simp] theorem raise_image_height (e : Status) : (raise .image e s).height = Config.freeHeight s.draws := rfl
@[simp] theorem raise_image_format (e : Status) : (raise .image e s).format = Config.freeFormat s.draws := rfl
@[simp] theorem raise_image_buf (e : Status) :
    (raise .image e s).buf = writeBytes [] 0 (Config.freeBuf s.draws) := rfl
@[simp] theorem raise_image_cmd (e : Status) : (raise .image e s).cmd = s.cmd := rfl
@[simp] theorem raise_image_arg0 (e : Status) : (raise .image e s).arg0 = s.arg0 := rfl
@[simp] theorem raise_image_arg1 (e : Status) : (raise .image e s).arg1 = s.arg1 := rfl
@[simp] theorem raise_image_arg2 (e : Status) : (raise .image e s).arg2 = s.arg2 := rfl
@[simp] theorem raise_image_status (e : Status) : (raise .image e s).status = e := rfl
@[simp] theorem raise_image_result (e : Status) : (raise .image e s).result = s.result := rfl
@[simp] theorem raise_image_out (e : Status) : (raise .image e s).out = s.out := rfl
@[simp] theorem raise_image_file (e : Status) : (raise .image e s).file = s.file := rfl
@[simp] theorem raise_image_ioFail (e : Status) : (raise .image e s).ioFail = s.ioFail := rfl
@[simp] theorem raise_image_transfer (e : Status) : (raise .image e s).transfer = none := rfl
@[simp] theorem raise_image_script (e : Status) : (raise .image e s).script = s.script := rfl
@[simp] theorem raise_image_draws (e : Status) : (raise .image e s).draws = s.draws + 1 := rfl

/-! ### construct -/

@[simp] theorem construct_cfg (w h : Word) (f : Byte) : (construct w h f s).cfg = s.cfg := rfl
@[simp] theorem construct_valid (w h : Word) (f : Byte) : (construct w h f s).valid = s.valid := rfl
@[simp] theorem construct_width (w h : Word) (f : Byte) : (construct w h f s).width = w := rfl
@[simp] theorem construct_height (w h : Word) (f : Byte) : (construct w h f s).height = h := rfl
@[simp] theorem construct_format (w h : Word) (f : Byte) : (construct w h f s).format = f := rfl
@[simp] theorem construct_buf (w h : Word) (f : Byte) : (construct w h f s).buf = [] := rfl
@[simp] theorem construct_cmd (w h : Word) (f : Byte) : (construct w h f s).cmd = s.cmd := rfl
@[simp] theorem construct_arg0 (w h : Word) (f : Byte) : (construct w h f s).arg0 = s.arg0 := rfl
@[simp] theorem construct_arg1 (w h : Word) (f : Byte) : (construct w h f s).arg1 = s.arg1 := rfl
@[simp] theorem construct_arg2 (w h : Word) (f : Byte) : (construct w h f s).arg2 = s.arg2 := rfl
@[simp] theorem construct_status (w h : Word) (f : Byte) : (construct w h f s).status = s.status := rfl
@[simp] theorem construct_result (w h : Word) (f : Byte) : (construct w h f s).result = s.result := rfl
@[simp] theorem construct_out (w h : Word) (f : Byte) : (construct w h f s).out = s.out := rfl
@[simp] theorem construct_file (w h : Word) (f : Byte) : (construct w h f s).file = s.file := rfl
@[simp] theorem construct_ioFail (w h : Word) (f : Byte) : (construct w h f s).ioFail = s.ioFail := rfl
@[simp] theorem construct_transfer (w h : Word) (f : Byte) : (construct w h f s).transfer = s.transfer := rfl
@[simp] theorem construct_script (w h : Word) (f : Byte) : (construct w h f s).script = s.script := rfl
@[simp] theorem construct_draws (w h : Word) (f : Byte) : (construct w h f s).draws = s.draws := rfl

/-! ### setBuf -/

@[simp] theorem setBuf_cfg (m : Memory) : (setBuf m s).cfg = s.cfg := rfl
@[simp] theorem setBuf_valid (m : Memory) : (setBuf m s).valid = s.valid := rfl
@[simp] theorem setBuf_width (m : Memory) : (setBuf m s).width = s.width := rfl
@[simp] theorem setBuf_height (m : Memory) : (setBuf m s).height = s.height := rfl
@[simp] theorem setBuf_format (m : Memory) : (setBuf m s).format = s.format := rfl
@[simp] theorem setBuf_buf (m : Memory) : (setBuf m s).buf = m := rfl
@[simp] theorem setBuf_cmd (m : Memory) : (setBuf m s).cmd = s.cmd := rfl
@[simp] theorem setBuf_arg0 (m : Memory) : (setBuf m s).arg0 = s.arg0 := rfl
@[simp] theorem setBuf_arg1 (m : Memory) : (setBuf m s).arg1 = s.arg1 := rfl
@[simp] theorem setBuf_arg2 (m : Memory) : (setBuf m s).arg2 = s.arg2 := rfl
@[simp] theorem setBuf_status (m : Memory) : (setBuf m s).status = s.status := rfl
@[simp] theorem setBuf_result (m : Memory) : (setBuf m s).result = s.result := rfl
@[simp] theorem setBuf_out (m : Memory) : (setBuf m s).out = s.out := rfl
@[simp] theorem setBuf_file (m : Memory) : (setBuf m s).file = s.file := rfl
@[simp] theorem setBuf_ioFail (m : Memory) : (setBuf m s).ioFail = s.ioFail := rfl
@[simp] theorem setBuf_transfer (m : Memory) : (setBuf m s).transfer = s.transfer := rfl
@[simp] theorem setBuf_script (m : Memory) : (setBuf m s).script = s.script := rfl
@[simp] theorem setBuf_draws (m : Memory) : (setBuf m s).draws = s.draws := rfl

/-! ### closeStreams -/

@[simp] theorem closeStreams_cfg : (closeStreams s).cfg = s.cfg := rfl
@[simp] theorem closeStreams_valid : (closeStreams s).valid = s.valid := rfl
@[simp] theorem closeStreams_width : (closeStreams s).width = s.width := rfl
@[simp] theorem closeStreams_height : (closeStreams s).height = s.height := rfl
@[simp] theorem closeStreams_format : (closeStreams s).format = s.format := rfl
@[simp] theorem closeStreams_buf : (closeStreams s).buf = s.buf := rfl
@[simp] theorem closeStreams_cmd : (closeStreams s).cmd = s.cmd := rfl
@[simp] theorem closeStreams_arg0 : (closeStreams s).arg0 = s.arg0 := rfl
@[simp] theorem closeStreams_arg1 : (closeStreams s).arg1 = s.arg1 := rfl
@[simp] theorem closeStreams_arg2 : (closeStreams s).arg2 = s.arg2 := rfl
@[simp] theorem closeStreams_status : (closeStreams s).status = s.status := rfl
@[simp] theorem closeStreams_result : (closeStreams s).result = s.result := rfl
@[simp] theorem closeStreams_out : (closeStreams s).out = s.out := rfl
@[simp] theorem closeStreams_file : (closeStreams s).file = [] := rfl
@[simp] theorem closeStreams_ioFail : (closeStreams s).ioFail = false := rfl
@[simp] theorem closeStreams_transfer : (closeStreams s).transfer = s.transfer := rfl
@[simp] theorem closeStreams_script : (closeStreams s).script = s.script := rfl
@[simp] theorem closeStreams_draws : (closeStreams s).draws = s.draws := rfl

/-! ### latch -/

@[simp] theorem latch_cfg (c : Byte) (f : List Byte) (b : Bool) : (latch c f b s).cfg = s.cfg := rfl
@[simp] theorem latch_valid (c : Byte) (f : List Byte) (b : Bool) : (latch c f b s).valid = s.valid := rfl
@[simp] theorem latch_width (c : Byte) (f : List Byte) (b : Bool) : (latch c f b s).width = s.width := rfl
@[simp] theorem latch_height (c : Byte) (f : List Byte) (b : Bool) : (latch c f b s).height = s.height := rfl
@[simp] theorem latch_format (c : Byte) (f : List Byte) (b : Bool) : (latch c f b s).format = s.format := rfl
@[simp] theorem latch_buf (c : Byte) (f : List Byte) (b : Bool) : (latch c f b s).buf = s.buf := rfl
@[simp] theorem latch_cmd (c : Byte) (f : List Byte) (b : Bool) : (latch c f b s).cmd = c := rfl
@[simp] theorem latch_arg0 (c : Byte) (f : List Byte) (b : Bool) : (latch c f b s).arg0 = s.arg0 := rfl
@[simp] theorem latch_arg1 (c : Byte) (f : List Byte) (b : Bool) : (latch c f b s).arg1 = s.arg1 := rfl
@[simp] theorem latch_arg2 (c : Byte) (f : List Byte) (b : Bool) : (latch c f b s).arg2 = s.arg2 := rfl
@[simp] theorem latch_status (c : Byte) (f : List Byte) (b : Bool) : (latch c f b s).status = s.status := rfl
@[simp] theorem latch_result (c : Byte) (f : List Byte) (b : Bool) : (latch c f b s).result = s.result := rfl
@[simp] theorem latch_out (c : Byte) (f : List Byte) (b : Bool) : (latch c f b s).out = s.out := rfl
@[simp] theorem latch_file (c : Byte) (f : List Byte) (b : Bool) : (latch c f b s).file = f := rfl
@[simp] theorem latch_ioFail (c : Byte) (f : List Byte) (b : Bool) : (latch c f b s).ioFail = b := rfl
@[simp] theorem latch_transfer (c : Byte) (f : List Byte) (b : Bool) : (latch c f b s).transfer = s.transfer := rfl
@[simp] theorem latch_script (c : Byte) (f : List Byte) (b : Bool) : (latch c f b s).script = s.script := rfl
@[simp] theorem latch_draws (c : Byte) (f : List Byte) (b : Bool) : (latch c f b s).draws = s.draws := rfl

/-! ### settle -/

@[simp] theorem settle_cfg : (settle s).cfg = s.cfg := by unfold settle; split <;> rfl
@[simp] theorem settle_valid : (settle s).valid = s.valid := by unfold settle; split <;> rfl
@[simp] theorem settle_width : (settle s).width = s.width := by unfold settle; split <;> rfl
@[simp] theorem settle_height : (settle s).height = s.height := by unfold settle; split <;> rfl
@[simp] theorem settle_format : (settle s).format = s.format := by unfold settle; split <;> rfl
@[simp] theorem settle_buf : (settle s).buf = s.buf := by unfold settle; split <;> rfl
@[simp] theorem settle_cmd : (settle s).cmd = s.cmd := by unfold settle; split <;> rfl
@[simp] theorem settle_arg0 : (settle s).arg0 = s.arg0 := by unfold settle; split <;> rfl
@[simp] theorem settle_arg1 : (settle s).arg1 = s.arg1 := by unfold settle; split <;> rfl
@[simp] theorem settle_arg2 : (settle s).arg2 = s.arg2 := by unfold settle; split <;> rfl
@[simp] theorem settle_status : (settle s).status = s.status := by unfold settle; split <;> rfl
@[simp] theorem settle_result : (settle s).result = s.result := by unfold settle; split <;> rfl
@[simp] theorem settle_out : (settle s).out = s.out := by unfold settle; split <;> rfl
@[simp] theorem settle_transfer : (settle s).transfer = s.transfer := by unfold settle; split <;> rfl
@[simp] theorem settle_script : (settle s).script = s.script := by unfold settle; split <;> rfl
@[simp] theorem settle_draws : (settle s).draws = s.draws := by unfold settle; split <;> rfl

/-! ### hostReset -/

@[simp] theorem hostReset_cfg : (hostReset s).cfg = s.cfg := rfl
@[simp] theorem hostReset_valid : (hostReset s).valid = false := rfl
@[simp] theorem hostReset_width : (hostReset s).width = Config.freeWidth s.draws := rfl
@[simp] theorem hostReset_height : (hostReset s).height = Config.freeHeight s.draws := rfl
@[simp] theorem hostReset_format : (hostReset s).format = Config.freeFormat s.draws := rfl
@[simp] theorem hostReset_buf : (hostReset s).buf = writeBytes [] 0 (Config.freeBuf s.draws) := rfl
@[simp] theorem hostReset_cmd : (hostReset s).cmd = Config.freeCmd s.draws := rfl
@[simp] theorem hostReset_arg0 : (hostReset s).arg0 = Config.freeArg0 s.draws := rfl
@[simp] theorem hostReset_arg1 : (hostReset s).arg1 = Config.freeArg1 s.draws := rfl
@[simp] theorem hostReset_arg2 : (hostReset s).arg2 = Config.freeArg2 s.draws := rfl
@[simp] theorem hostReset_status : (hostReset s).status = .ok := rfl
@[simp] theorem hostReset_result : (hostReset s).result = Config.freeResult s.draws := rfl
@[simp] theorem hostReset_out : (hostReset s).out = [] := rfl
@[simp] theorem hostReset_file : (hostReset s).file = [] := rfl
@[simp] theorem hostReset_ioFail : (hostReset s).ioFail = false := rfl
@[simp] theorem hostReset_transfer : (hostReset s).transfer = none := rfl
@[simp] theorem hostReset_script : (hostReset s).script = s.script := rfl
@[simp] theorem hostReset_draws : (hostReset s).draws = s.draws + 1 := rfl

/-! ### beginTransfer -/

@[simp] theorem beginTransfer_cfg (h : Header) : (beginTransfer h s).cfg = s.cfg := rfl
@[simp] theorem beginTransfer_valid (h : Header) : (beginTransfer h s).valid = false := rfl
@[simp] theorem beginTransfer_width (h : Header) : (beginTransfer h s).width = h.width.signExtend 32 := rfl
@[simp] theorem beginTransfer_height (h : Header) : (beginTransfer h s).height = h.height.signExtend 32 := rfl
@[simp] theorem beginTransfer_format (h : Header) : (beginTransfer h s).format = headerFormat h := rfl
@[simp] theorem beginTransfer_buf (h : Header) : (beginTransfer h s).buf = [] := rfl
@[simp] theorem beginTransfer_cmd (h : Header) : (beginTransfer h s).cmd = s.cmd := rfl
@[simp] theorem beginTransfer_arg0 (h : Header) : (beginTransfer h s).arg0 = s.arg0 := rfl
@[simp] theorem beginTransfer_arg1 (h : Header) : (beginTransfer h s).arg1 = s.arg1 := rfl
@[simp] theorem beginTransfer_arg2 (h : Header) : (beginTransfer h s).arg2 = s.arg2 := rfl
@[simp] theorem beginTransfer_status (h : Header) : (beginTransfer h s).status = s.status := rfl
@[simp] theorem beginTransfer_result (h : Header) : (beginTransfer h s).result = s.result := rfl
@[simp] theorem beginTransfer_out (h : Header) : (beginTransfer h s).out = s.out := rfl
@[simp] theorem beginTransfer_file (h : Header) : (beginTransfer h s).file = s.file := rfl
@[simp] theorem beginTransfer_ioFail (h : Header) : (beginTransfer h s).ioFail = s.ioFail := rfl
@[simp] theorem beginTransfer_transfer (h : Header) :
    (beginTransfer h s).transfer = some { header := h, pos := hdrLen, count := 0, phase := .dataType } := rfl
@[simp] theorem beginTransfer_script (h : Header) : (beginTransfer h s).script = s.script := rfl
@[simp] theorem beginTransfer_draws (h : Header) : (beginTransfer h s).draws = s.draws := rfl

/-! ### finishDecode -/

@[simp] theorem finishDecode_cfg (t : Transfer) : (finishDecode t s).cfg = s.cfg := rfl
@[simp] theorem finishDecode_valid (t : Transfer) : (finishDecode t s).valid = true := rfl
@[simp] theorem finishDecode_width (t : Transfer) : (finishDecode t s).width = s.width := rfl
@[simp] theorem finishDecode_height (t : Transfer) : (finishDecode t s).height = s.height := rfl
@[simp] theorem finishDecode_format (t : Transfer) : (finishDecode t s).format = s.format := rfl
@[simp] theorem finishDecode_buf (t : Transfer) :
    (finishDecode t s).buf = if t.header.descriptor &&& topLeft = 0#8 then flipRows s else s.buf := rfl
@[simp] theorem finishDecode_cmd (t : Transfer) : (finishDecode t s).cmd = s.cmd := rfl
@[simp] theorem finishDecode_arg0 (t : Transfer) : (finishDecode t s).arg0 = s.arg0 := rfl
@[simp] theorem finishDecode_arg1 (t : Transfer) : (finishDecode t s).arg1 = s.arg1 := rfl
@[simp] theorem finishDecode_arg2 (t : Transfer) : (finishDecode t s).arg2 = s.arg2 := rfl
@[simp] theorem finishDecode_status (t : Transfer) : (finishDecode t s).status = .ok := rfl
@[simp] theorem finishDecode_result (t : Transfer) : (finishDecode t s).result = s.result := rfl
@[simp] theorem finishDecode_out (t : Transfer) : (finishDecode t s).out = s.out := rfl
@[simp] theorem finishDecode_file (t : Transfer) : (finishDecode t s).file = s.file := rfl
@[simp] theorem finishDecode_ioFail (t : Transfer) : (finishDecode t s).ioFail = s.ioFail := rfl
@[simp] theorem finishDecode_transfer (t : Transfer) : (finishDecode t s).transfer = none := rfl
@[simp] theorem finishDecode_script (t : Transfer) : (finishDecode t s).script = s.script := rfl
@[simp] theorem finishDecode_draws (t : Transfer) : (finishDecode t s).draws = s.draws := rfl

/-! ### rlePayload -/

@[simp] theorem rlePayload_cfg (t : Transfer) : (rlePayload t s).cfg = s.cfg := rfl
@[simp] theorem rlePayload_valid (t : Transfer) : (rlePayload t s).valid = s.valid := rfl
@[simp] theorem rlePayload_width (t : Transfer) : (rlePayload t s).width = s.width := rfl
@[simp] theorem rlePayload_height (t : Transfer) : (rlePayload t s).height = s.height := rfl
@[simp] theorem rlePayload_format (t : Transfer) : (rlePayload t s).format = s.format := rfl
@[simp] theorem rlePayload_buf (t : Transfer) : (rlePayload t s).buf = s.buf := rfl
@[simp] theorem rlePayload_cmd (t : Transfer) : (rlePayload t s).cmd = s.cmd := rfl
@[simp] theorem rlePayload_arg0 (t : Transfer) : (rlePayload t s).arg0 = s.arg0 := rfl
@[simp] theorem rlePayload_arg1 (t : Transfer) : (rlePayload t s).arg1 = s.arg1 := rfl
@[simp] theorem rlePayload_arg2 (t : Transfer) : (rlePayload t s).arg2 = s.arg2 := rfl
@[simp] theorem rlePayload_status (t : Transfer) : (rlePayload t s).status = s.status := rfl
@[simp] theorem rlePayload_result (t : Transfer) : (rlePayload t s).result = s.result := rfl
@[simp] theorem rlePayload_out (t : Transfer) : (rlePayload t s).out = s.out := rfl
@[simp] theorem rlePayload_file (t : Transfer) : (rlePayload t s).file = s.file := rfl
@[simp] theorem rlePayload_ioFail (t : Transfer) : (rlePayload t s).ioFail = s.ioFail := rfl
@[simp] theorem rlePayload_transfer (t : Transfer) :
    (rlePayload t s).transfer = some { t with count := 0, phase := .chunks } := rfl
@[simp] theorem rlePayload_script (t : Transfer) : (rlePayload t s).script = s.script := rfl
@[simp] theorem rlePayload_draws (t : Transfer) : (rlePayload t s).draws = s.draws := rfl

end Sys2Proof.Laws
end

