-- ==== Sys2Proof/Laws/Stream.lean ====
section
/-!
SUPPORT. What the shared operations of a DECODE can answer: the input stream, the payload reads, the two chunk kinds, the
fetch. One lemma each; later proofs cite these and do not unfold.
-/

namespace Sys2Proof.Laws

open Sys2Proof Sys2Proof.Machine

/-! ### The input stream -/

/-- `InRead(n)` succeeds exactly where `n` bytes are left, and answers them. -/
theorem inRead_eq_some {file : List Byte} {pos n : Nat} {bs : List Byte} :
    inRead file pos n = some bs ↔ pos + n ≤ file.length ∧ (file.drop pos).take n = bs := by
  unfold inRead; split <;> simp [*]

theorem inRead_eq_none {file : List Byte} {pos n : Nat} : inRead file pos n = none ↔ file.length < pos + n := by
  unfold inRead; split <;> simp <;> omega

theorem length_of_inRead {file : List Byte} {pos n : Nat} {bs : List Byte} (h : inRead file pos n = some bs) :
    bs.length = n := by
  obtain ⟨h1, rfl⟩ := inRead_eq_some.1 h
  simp; omega

theorem getD_of_inRead {file : List Byte} {pos n : Nat} {bs : List Byte} (h : inRead file pos n = some bs) (i : Nat)
    (hi : i < n) (d : Byte) : bs.getD i d = file.getD (pos + i) d := by
  obtain ⟨h1, rfl⟩ := inRead_eq_some.1 h
  simp [List.getD_eq_getElem?_getD, hi]

/-- Bytes after those that are read play no part (R27, R147). -/
theorem inRead_append {file : List Byte} {pos n : Nat} {bs : List Byte} (h : inRead file pos n = some bs)
    (extra : List Byte) : inRead (file ++ extra) pos n = some bs := by
  obtain ⟨h1, rfl⟩ := inRead_eq_some.1 h
  refine inRead_eq_some.2 ⟨by simp; omega, ?_⟩
  rw [List.drop_append_of_le_length (by omega), List.take_append_of_le_length (by simp; omega)]

/-! ### The decoder, as the fetch uses it -/

/-- A chunk header byte is a LIT or a REP of 1 to 128 pixels. -/
theorem decodeChunk_cases (h : Byte) :
    ∃ n, 1 ≤ n ∧ n ≤ 128 ∧ (decodeChunk h = .lit n ∨ decodeChunk h = .rep n) := by
  refine ⟨(h.extractLsb' 0 7).toNat + 1, by omega, ?_, ?_⟩
  · have := (h.extractLsb' 0 7).isLt; omega
  · unfold decodeChunk; split <;> simp

/-- A data-type code is one of the four, or rejected. -/
theorem decodeDataType_cases (b : Byte) :
    (∃ e, decodeDataType b = .reject e) ∨
    (∃ i, decodeDataType b = .instr i ∧ (i = .dtRawColor ∨ i = .dtRawGray ∨ i = .dtRleColor ∨ i = .dtRleGray)) := by
  unfold decodeDataType
  split; · exact .inr ⟨_, rfl, by simp⟩
  split; · exact .inr ⟨_, rfl, by simp⟩
  split; · exact .inr ⟨_, rfl, by simp⟩
  split; · exact .inr ⟨_, rfl, by simp⟩
  exact .inl ⟨_, rfl⟩

/-! ### The payload operations -/

/-- LIT: the overrun, the short stream, or the pixels stored. -/
theorem litChunk_cases (n : Nat) (t : Transfer) (s : State) :
    (npix s < t.count + n ∧ litChunk n t s = raise .image .overrunError s) ∨
    (t.count + n ≤ npix s ∧ s.file.length < t.pos + n * bpp s ∧ litChunk n t s = raise .image .ioError s) ∨
    (t.count + n ≤ npix s ∧ ∃ bs, inRead s.file t.pos (n * bpp s) = some bs ∧ litChunk n t s =
      { s with
        buf := writeBytes s.buf (t.count * bpp s) bs
        transfer := some { t with pos := t.pos + n * bpp s, count := t.count + n } }) := by
  unfold litChunk
  split
  · exact .inl ⟨‹_›, rfl⟩
  · right
    split
    · exact .inl ⟨by omega, inRead_eq_none.1 ‹_›, rfl⟩
    · exact .inr ⟨by omega, _, ‹_›, rfl⟩

/-- REP: the overrun, the short stream, or the pixel repeated. -/
theorem repChunk_cases (n : Nat) (t : Transfer) (s : State) :
    (npix s < t.count + n ∧ repChunk n t s = raise .image .overrunError s) ∨
    (t.count + n ≤ npix s ∧ s.file.length < t.pos + bpp s ∧ repChunk n t s = raise .image .ioError s) ∨
    (t.count + n ≤ npix s ∧ ∃ p, inRead s.file t.pos (bpp s) = some p ∧ repChunk n t s =
      { s with
        buf := writeBytes s.buf (t.count * bpp s) (List.replicate n p).flatten
        transfer := some { t with pos := t.pos + bpp s, count := t.count + n } }) := by
  unfold repChunk
  split
  · exact .inl ⟨‹_›, rfl⟩
  · right
    split
    · exact .inl ⟨by omega, inRead_eq_none.1 ‹_›, rfl⟩
    · exact .inr ⟨by omega, _, ‹_›, rfl⟩

/-- The raw payload: the short stream, or the buffer stored. -/
theorem rawPayload_cases (t : Transfer) (s : State) :
    (s.file.length < t.pos + len s ∧ rawPayload t s = raise .image .ioError s) ∨
    (∃ bs, inRead s.file t.pos (len s) = some bs ∧ rawPayload t s =
      { s with
        buf := writeBytes s.buf 0 bs
        transfer := some { t with pos := t.pos + len s, phase := .finished } }) := by
  unfold rawPayload
  split
  · exact .inl ⟨inRead_eq_none.1 ‹_›, rfl⟩
  · exact .inr ⟨_, ‹_›, rfl⟩

/-- How many bytes a repeated pixel takes. -/
theorem length_replicate_flatten (n : Nat) (p : List Byte) : (List.replicate n p).flatten.length = n * p.length := by
  simp

/-! ### The fetch -/

/-- What a DECODE in progress does next: run a data-type code, run a chunk with the cursor past its header byte, raise an
error, or finish. -/
theorem fetchStream_cases (t : Transfer) (s : State) :
    (t.phase = .dataType ∧ ∃ i, (i = .dtRawColor ∨ i = .dtRawGray ∨ i = .dtRleColor ∨ i = .dtRleGray) ∧
      decode (.dataType t.header.dataType) = .instr i ∧ fetchStream t s = .run i t) ∨
    (t.phase = .chunks ∧ t.count < npix s ∧ ∃ h i n, s.file[t.pos]? = some h ∧ decode (.chunk h) = .instr i ∧
      1 ≤ n ∧ n ≤ 128 ∧ (i = .lit n ∨ i = .rep n) ∧ fetchStream t s = .run i { t with pos := t.pos + 1 }) ∨
    (t.phase = .dataType ∧ fetchStream t s = .stop (raise .image .unsupportedDataType s)) ∨
    (t.phase = .chunks ∧ t.count < npix s ∧ s.file.length ≤ t.pos ∧
      fetchStream t s = .stop (raise .image .ioError s)) ∨
    ((t.phase = .finished ∨ (t.phase = .chunks ∧ npix s ≤ t.count)) ∧
      fetchStream t s = .stop (finishDecode t s)) := by
  unfold fetchStream
  cases hp : t.phase with
  | dataType =>
    rcases decodeDataType_cases t.header.dataType with ⟨e, he⟩ | ⟨i, hi, hc⟩
    · right; right; left; simp [decode, he]
    · left; exact ⟨rfl, i, hc, by simp [decode, hi], by simp [decode, hi]⟩
  | chunks =>
    by_cases hn : t.count < npix s
    · simp only [hn, if_true]
      by_cases hl : t.pos < s.file.length
      · right; left
        have hr : inRead s.file t.pos 1 = some [s.file[t.pos]] := by
          refine inRead_eq_some.2 ⟨by omega, ?_⟩
          rw [List.drop_eq_getElem_cons hl, List.take_succ_cons, List.take_zero]
        obtain ⟨n, h1, h2, h3⟩ := decodeChunk_cases s.file[t.pos]
        refine ⟨trivial, trivial, s.file[t.pos], decodeChunk s.file[t.pos], n, by simp [hl], rfl, h1, h2, h3, ?_⟩
        simp [hr, decode]
      · right; right; right; left
        have hr : inRead s.file t.pos 1 = none := inRead_eq_none.2 (by omega)
        refine ⟨trivial, trivial, by omega, ?_⟩
        simp [hr]
    · right; right; right; right
      exact ⟨.inr ⟨rfl, by omega⟩, by simp [hn]⟩
  | finished => right; right; right; right; exact ⟨.inl rfl, rfl⟩

end Sys2Proof.Laws
end

