-- ==== Sys2Proof/Laws/Exec.lean ====
section
/-!
SUPPORT. What each meaning and each step can answer, once: later proofs cite these and do not unfold `exec` or `step`.
-/

namespace Sys2Proof.Laws

open Sys2Proof Sys2Proof.Machine

/-! ### Ending a command -/

@[simp] theorem mapNext_next (f : State → State) (s : State) : mapNext f (.next s) = .next (f s) := rfl

/-- A next state after `mapNext` comes from one before it. -/
theorem mapNext_eq_next {f : State → State} {o : Outcome} {t : State} :
    mapNext f o = .next t ↔ ∃ s, o = .next s ∧ f s = t := by
  cases o <;> simp [mapNext]

theorem settle_of_none {s : State} (h : s.transfer = none) : settle s = closeStreams s := by simp [settle, h]

theorem settle_of_some {s : State} {t : Transfer} (h : s.transfer = some t) : settle s = s := by simp [settle, h]

/-! ### The image buffer family -/

theorem execNew_cases (w h f : Word) (s : State) :
    (newStatus s.cfg w h f = .ok ∧ execNew w h f s =
      .next { s with valid := true, width := w, height := h, format := f.setWidth 8, buf := [], status := .ok }) ∨
    (newStatus s.cfg w h f ≠ .ok ∧ execNew w h f s = .next { s with status := newStatus s.cfg w h f }) := by
  unfold execNew; by_cases hs : newStatus s.cfg w h f = .ok
  · exact .inl ⟨hs, by simp only [hs, if_true]; rfl⟩
  · exact .inr ⟨hs, by simp only [hs, if_false]; rfl⟩

theorem execGet_cases (x y : Word) (s : State) :
    (getStatus s x y = .ok ∧ execGet x y s =
      .next { s with result := unpack s.buf (bpp s) (index s x y), status := .ok }) ∨
    (getStatus s x y ≠ .ok ∧ execGet x y s = .next (raise .result (getStatus s x y) s)) := by
  unfold execGet; by_cases hs : getStatus s x y = .ok
  · exact .inl ⟨hs, by simp only [hs, if_true]; rfl⟩
  · exact .inr ⟨hs, by simp only [hs, if_false]⟩

/-- With an image in the slot the first test passes. -/
theorem imageStatus_of_valid {s : State} (h : s.valid = true) : imageStatus s = .ok := if_pos h

/-- With none it is `NoImage`. -/
theorem imageStatus_of_invalid {s : State} (h : s.valid = false) : imageStatus s = .noImage := if_neg (by simp [h])

theorem execSet_cases (x y c : Word) (s : State) :
    (s.valid = true ∧ InBounds s x y ∧ execSet x y c s =
      .next { s with buf := pack s.buf (bpp s) (index s x y) c, status := .ok }) ∨
    (s.valid = true ∧ ¬ InBounds s x y ∧ execSet x y c s = .next { s with status := .ok }) ∨
    (s.valid = false ∧ execSet x y c s = .next { s with status := .noImage }) := by
  unfold execSet
  rcases Bool.eq_false_or_eq_true s.valid with hv | hv
  · by_cases hb : InBounds s x y
    · exact .inl ⟨hv, hb, by simp only [imageStatus_of_valid hv, if_true]; rw [if_pos hb]; rfl⟩
    · exact .inr (.inl ⟨hv, hb, by simp only [imageStatus_of_valid hv, if_true]; rw [if_neg hb]; rfl⟩)
  · exact .inr (.inr ⟨hv, by simp only [imageStatus_of_invalid hv]; rfl⟩)

theorem execClear_cases (s : State) :
    (s.valid = true ∧ execClear s = .next { s with buf := zeroFill s.buf (len s), status := .ok }) ∨
    (s.valid = false ∧ execClear s = .next { s with status := .noImage }) := by
  unfold execClear
  rcases Bool.eq_false_or_eq_true s.valid with hv | hv
  · exact .inl ⟨hv, by simp only [imageStatus_of_valid hv]; rfl⟩
  · exact .inr ⟨hv, by simp only [imageStatus_of_invalid hv]; rfl⟩

theorem execFlip_cases (s : State) :
    (s.valid = true ∧ execFlip s = .next { s with buf := flipRows s, status := .ok }) ∨
    (s.valid = false ∧ execFlip s = .next { s with status := .noImage }) := by
  unfold execFlip
  rcases Bool.eq_false_or_eq_true s.valid with hv | hv
  · exact .inl ⟨hv, by simp only [imageStatus_of_valid hv]; rfl⟩
  · exact .inr ⟨hv, by simp only [imageStatus_of_invalid hv]; rfl⟩

/-! ### The encode family -/

theorem execEncode_cases (rle : Bool) (s : State) :
    (encodeStatus s = .ok ∧ execEncode rle s =
      .next { s with out := s.out ++ [encodedFile rle s], status := .ok }) ∨
    (encodeStatus s ≠ .ok ∧ execEncode rle s = .next { s with status := encodeStatus s }) := by
  unfold execEncode; by_cases hs : encodeStatus s = .ok
  · exact .inl ⟨hs, by simp only [hs, if_true]; rfl⟩
  · exact .inr ⟨hs, by simp only [hs, if_false]; rfl⟩

/-! ### The decode family -/

@[simp] theorem execLit_some {s : State} {t : Transfer} (h : s.transfer = some t) (n : Nat) :
    execLit n s = .next (litChunk n t s) := by simp [execLit, h]

@[simp] theorem execRep_some {s : State} {t : Transfer} (h : s.transfer = some t) (n : Nat) :
    execRep n s = .next (repChunk n t s) := by simp [execRep, h]

@[simp] theorem execDtRawColor_some {s : State} {t : Transfer} (h : s.transfer = some t) :
    execDtRawColor s = .next (rawPayload t s) := by simp [execDtRawColor, h]

@[simp] theorem execDtRawGray_some {s : State} {t : Transfer} (h : s.transfer = some t) :
    execDtRawGray s = .next (rawPayload t s) := by simp [execDtRawGray, h]

@[simp] theorem execDtRleColor_some {s : State} {t : Transfer} (h : s.transfer = some t) :
    execDtRleColor s = .next (rlePayload t s) := by simp [execDtRleColor, h]

@[simp] theorem execDtRleGray_some {s : State} {t : Transfer} (h : s.transfer = some t) :
    execDtRleGray s = .next (rlePayload t s) := by simp [execDtRleGray, h]

/-- Running a stream instruction inside the command is running its meaning. -/
theorem execStream_eq_exec (i : Instr) (s : State)
    (h : (∃ n, i = .lit n ∨ i = .rep n) ∨ i = .dtRawColor ∨ i = .dtRawGray ∨ i = .dtRleColor ∨ i = .dtRleGray) :
    execStream i s = exec i s := by
  rcases h with ⟨n, rfl | rfl⟩ | rfl | rfl | rfl | rfl <;> rfl

/-- One round of a DECODE in progress: a payload operation on the locals fetched, an error, or the end. -/
theorem transferRound_cases (t : Transfer) (s : State) :
    (t.phase = .dataType ∧ (transferRound t s = .next (rawPayload t { s with transfer := some t }) ∨
      transferRound t s = .next (rlePayload t { s with transfer := some t }))) ∨
    (t.phase = .chunks ∧ t.count < npix s ∧ t.pos < s.file.length ∧ ∃ n, 1 ≤ n ∧ n ≤ 128 ∧
      (transferRound t s = .next (litChunk n { t with pos := t.pos + 1 }
          { s with transfer := some { t with pos := t.pos + 1 } }) ∨
        transferRound t s = .next (repChunk n { t with pos := t.pos + 1 }
          { s with transfer := some { t with pos := t.pos + 1 } }))) ∨
    (∃ e, e ≠ .ok ∧ transferRound t s = .next (raise .image e s)) ∨
    ((t.phase = .finished ∨ (t.phase = .chunks ∧ npix s ≤ t.count)) ∧
      transferRound t s = .next (finishDecode t s)) := by
  unfold transferRound
  rcases fetchStream_cases t s with ⟨hp, i, hi, -, he⟩ | ⟨hp, hc, h, i, n, hh, -, h1, h2, hi, he⟩ | ⟨hp, he⟩ |
    ⟨hp, -, -, he⟩ | ⟨hp, he⟩
  · left; rw [he]
    rcases hi with rfl | rfl | rfl | rfl
    · exact ⟨hp, .inl rfl⟩
    · exact ⟨hp, .inl rfl⟩
    · exact ⟨hp, .inr rfl⟩
    · exact ⟨hp, .inr rfl⟩
  · right; left; rw [he]
    refine ⟨hp, hc, (List.getElem?_eq_some_iff.1 hh).1, n, h1, h2, ?_⟩
    rcases hi with rfl | rfl
    · exact .inl rfl
    · exact .inr rfl
  · right; right; left; rw [he]; exact ⟨_, by simp, rfl⟩
  · right; right; left; rw [he]; exact ⟨_, by simp, rfl⟩
  · right; right; right; rw [he]; exact ⟨hp, rfl⟩

/-- A step in the middle of a DECODE is one round, its streams closed if the DECODE is over. -/
theorem step_of_transfer {s : State} {t : Transfer} (h : s.transfer = some t) :
    step s = mapNext settle (transferRound t s) := by
  unfold step transferRound
  rw [h]
  rcases fetchStream_cases t s with ⟨hp, i, hi, -, he⟩ | ⟨hp, hc, h', i, n, hh, -, h1, h2, hi, he⟩ | ⟨hp, he⟩ |
    ⟨hp, -, -, he⟩ | ⟨hp, he⟩
  · simp only [he, execStream_eq_exec i _ (.inr hi)]
  · simp only [he, execStream_eq_exec i _ (.inl ⟨n, hi⟩)]
  · simp only [he]; rfl
  · simp only [he]; rfl
  · simp only [he]; rfl

/-- What DECODE does before its stream is read: an error, or the locals begun. -/
theorem openDecode_cases (s : State) :
    (∃ e, e ≠ .ok ∧ openDecode s = raise .image e s) ∨
    (s.ioFail = false ∧ 18 ≤ s.file.length ∧ headerStatus s.cfg (hdrUnpack (s.file.take 18)) = .ok ∧
      openDecode s = beginTransfer (hdrUnpack (s.file.take 18)) s) := by
  unfold openDecode
  cases hio : s.ioFail
  · simp only [Bool.false_eq_true, if_false]
    split
    · exact .inl ⟨_, by simp, rfl⟩
    · rename_i hb hr
      obtain ⟨hl, rfl⟩ := inRead_eq_some.1 hr
      simp only [hdrLen, List.drop_zero] at hl ⊢
      by_cases hs : headerStatus s.cfg (hdrUnpack (s.file.take 18)) = .ok
      · exact .inr ⟨trivial, by omega, hs, by simp [hs]⟩
      · exact .inl ⟨_, hs, by simp [hs]⟩
  · exact .inl ⟨_, by simp, rfl⟩

/-! ### A step between commands -/

/-- With a move pending and no DECODE in progress, a step is that move. -/
theorem step_of_move {s : State} {m : HostMove} {rest : List HostMove} (h : s.transfer = none)
    (hm : s.script = m :: rest) :
    step s = match hostMove m { s with script := rest } with
      | .run i s' => mapNext settle (exec i s')
      | .done s' => .next s' := by
  cases s; cases h; cases hm; rfl

theorem step_of_idle {s : State} (h : s.transfer = none) (hm : s.script = []) : step s = .next s := by
  simp only [step, h, hm]

/-- The commands, by code. -/
theorem decodeCommand_cases (code : Byte) (a0 a1 a2 : Word) :
    (code = 0x01#8 ∧ decodeCommand code a0 a1 a2 = .instr (.new a0 a1 a2)) ∨
    (code = 0x02#8 ∧ decodeCommand code a0 a1 a2 = .instr (.get a0 a1)) ∨
    (code = 0x03#8 ∧ decodeCommand code a0 a1 a2 = .instr (.set a0 a1 a2)) ∨
    (code = 0x04#8 ∧ decodeCommand code a0 a1 a2 = .instr .clear) ∨
    (code = 0x05#8 ∧ decodeCommand code a0 a1 a2 = .instr .flip) ∨
    (code = 0x06#8 ∧ decodeCommand code a0 a1 a2 = .instr (.encode (decide (a0 ≠ 0#32)))) ∨
    (code = 0x07#8 ∧ decodeCommand code a0 a1 a2 = .instr .decode) ∨
    (¬ (1 ≤ code.toNat ∧ code.toNat ≤ 7) ∧ decodeCommand code a0 a1 a2 = .reject (.illegalCommand code)) := by
  unfold decodeCommand
  by_cases h1 : code = 0x01#8; · simp [h1]
  by_cases h2 : code = 0x02#8; · simp [h2]
  by_cases h3 : code = 0x03#8; · simp [h3]
  by_cases h4 : code = 0x04#8; · simp [h4]
  by_cases h5 : code = 0x05#8; · simp [h5]
  by_cases h6 : code = 0x06#8; · simp [h6]
  by_cases h7 : code = 0x07#8; · simp [h7]
  refine .inr (.inr (.inr (.inr (.inr (.inr (.inr ⟨?_, by simp [h1, h2, h3, h4, h5, h6, h7]⟩))))))
  simp only [← BitVec.toNat_inj, BitVec.toNat_ofNat] at h1 h2 h3 h4 h5 h6 h7
  omega

end Sys2Proof.Laws
end

