-- ==== Sys2Proof/Laws/PerInstr.lean ====
section
/-!
SUPPORT. Statements made of every instruction, one lemma per constructor. The family `EncodesItsRow`: the encoding of a
well-formed instruction is admitted by the row of spec/opcode_table.json that bears its mnemonic.
-/

namespace Sys2Proof.Laws.EncodesItsRow

open Sys2Proof

/-- The encoding of `i` has the pattern of its own row of the table. -/
def Statement (i : Instr) : Prop :=
  i.wellFormed = true → ∃ r ∈ opcodeTable, r.mnemonic = mnemonicOf i ∧ r.admits (placeOf (encode i)) (codeByte (encode i)) = true

theorem new (w h f : Word) : Statement (.new w h f) := fun _ =>
  ⟨⟨"NEW", .command, 0x01#8, 0xFF#8⟩, by decide, rfl, by simp [Row.admits, placeOf, codeByte, Sys2Proof.encode]⟩
theorem get (x y : Word) : Statement (.get x y) := fun _ =>
  ⟨⟨"GET", .command, 0x02#8, 0xFF#8⟩, by decide, rfl, by simp [Row.admits, placeOf, codeByte, Sys2Proof.encode]⟩
theorem set (x y c : Word) : Statement (.set x y c) := fun _ =>
  ⟨⟨"SET", .command, 0x03#8, 0xFF#8⟩, by decide, rfl, by simp [Row.admits, placeOf, codeByte, Sys2Proof.encode]⟩
theorem clear : Statement .clear := fun _ =>
  ⟨⟨"CLEAR", .command, 0x04#8, 0xFF#8⟩, by decide, rfl, by simp [Row.admits, placeOf, codeByte, Sys2Proof.encode]⟩
theorem flip : Statement .flip := fun _ =>
  ⟨⟨"FLIP", .command, 0x05#8, 0xFF#8⟩, by decide, rfl, by simp [Row.admits, placeOf, codeByte, Sys2Proof.encode]⟩
theorem encode (rle : Bool) : Statement (.encode rle) := fun _ =>
  ⟨⟨"ENCODE", .command, 0x06#8, 0xFF#8⟩, by decide, rfl, by simp [Row.admits, placeOf, codeByte, Sys2Proof.encode]⟩
theorem decode : Statement .decode := fun _ =>
  ⟨⟨"DECODE", .command, 0x07#8, 0xFF#8⟩, by decide, rfl, by simp [Row.admits, placeOf, codeByte, Sys2Proof.encode]⟩

/-- The header byte of a LIT has bit 7 clear. -/
theorem lit_byte : ∀ k : Fin 128, (BitVec.ofNat 8 k.val &&& 0x80#8) = 0x00#8 := by decide
/-- The header byte of a REP has bit 7 set. -/
theorem rep_byte : ∀ k : Fin 128, (BitVec.ofNat 8 (128 + k.val) &&& 0x80#8) = 0x80#8 := by decide

theorem lit (n : Nat) : Statement (.lit n) := fun h => by
  have hn : ChunkCount n := by simpa [Instr.wellFormed] using h
  refine ⟨⟨"LIT", .chunk, 0x00#8, 0x80#8⟩, by decide, rfl, ?_⟩
  exact Bool.and_eq_true_iff.2 ⟨decide_eq_true rfl, decide_eq_true (lit_byte ⟨n - 1, by omega⟩)⟩

theorem rep (n : Nat) : Statement (.rep n) := fun h => by
  have hn : ChunkCount n := by simpa [Instr.wellFormed] using h
  refine ⟨⟨"REP", .chunk, 0x80#8, 0x80#8⟩, by decide, rfl, ?_⟩
  exact Bool.and_eq_true_iff.2 ⟨decide_eq_true rfl, decide_eq_true (rep_byte ⟨n - 1, by omega⟩)⟩

theorem dtRawColor : Statement .dtRawColor := fun _ =>
  ⟨⟨"DT_RAW_COLOR", .dataType, 0x02#8, 0xFF#8⟩, by decide, rfl, by simp [Row.admits, placeOf, codeByte, Sys2Proof.encode]⟩
theorem dtRawGray : Statement .dtRawGray := fun _ =>
  ⟨⟨"DT_RAW_GRAY", .dataType, 0x03#8, 0xFF#8⟩, by decide, rfl, by simp [Row.admits, placeOf, codeByte, Sys2Proof.encode]⟩
theorem dtRleColor : Statement .dtRleColor := fun _ =>
  ⟨⟨"DT_RLE_COLOR", .dataType, 0x0A#8, 0xFF#8⟩, by decide, rfl, by simp [Row.admits, placeOf, codeByte, Sys2Proof.encode]⟩
theorem dtRleGray : Statement .dtRleGray := fun _ =>
  ⟨⟨"DT_RLE_GRAY", .dataType, 0x0B#8, 0xFF#8⟩, by decide, rfl, by simp [Row.admits, placeOf, codeByte, Sys2Proof.encode]⟩

end Sys2Proof.Laws.EncodesItsRow
end

