-- ==== Sys2Proof/Laws/Pixels.lean ====
section
/-!
SUPPORT. What the converter and the row flip do, once each: the bytes `pack` leaves, the channels `unpack` reads, the
bytes `flipRows` leaves; and that the derived values see nothing but the geometry.
-/

namespace Sys2Proof.Laws

open Sys2Proof Sys2Proof.Machine

/-! ### The converter -/

@[simp] theorem length_packBytes (n : Nat) (c : Word) : (packBytes n c).length = n := by simp [packBytes]

theorem wf_pack {m : Memory} (hm : Memory.wf m) (n a : Nat) (c : Word) : Memory.wf (pack m n a c) :=
  wf_writeBytes hm a _

/-- R89: the pixel's bytes are the color's, every other byte stays. -/
theorem readByte_pack {m : Memory} (hm : Memory.wf m) (n a : Nat) (c : Word) (x : Nat) :
    readByte (pack m n a c) x = if a ≤ x ∧ x < a + n then channel c (x - a) else readByte m x := by
  rw [pack, readByte_writeBytes hm, length_packBytes]
  split
  · rename_i h
    simp [packBytes, List.getD_eq_getElem?_getD, show x - a < n by omega]
  · rfl

/-- A Color is its four channel slots. -/
theorem channel_colorOf (c0 c1 c2 c3 : Byte) :
    channel (colorOf c0 c1 c2 c3) 0 = c0 ∧ channel (colorOf c0 c1 c2 c3) 1 = c1 ∧
    channel (colorOf c0 c1 c2 c3) 2 = c2 ∧ channel (colorOf c0 c1 c2 c3) 3 = c3 := by
  refine ⟨?_, ?_, ?_, ?_⟩ <;>
    (apply BitVec.eq_of_getLsbD_eq; intro i hi
     simp only [channel, colorOf, BitVec.getLsbD_extractLsb', BitVec.getLsbD_append]
     simp only [hi, decide_true, Bool.true_and]
     repeat' split
     all_goals first | omega | (congr 1; omega))

/-- R88: a channel slot below the format's count is the stored byte, another one is 0xFF. -/
theorem channel_unpack (m : Memory) (n a : Nat) {k : Nat} (hk : k < 4) :
    channel (unpack m n a) k = if k < n then readByte m (a + k) else fill := by
  have h := channel_colorOf (if 0 < n then readByte m (a + 0) else fill) (if 1 < n then readByte m (a + 1) else fill)
    (if 2 < n then readByte m (a + 2) else fill) (if 3 < n then readByte m (a + 3) else fill)
  match k, hk with
  | 0, _ => exact h.1
  | 1, _ => exact h.2.1
  | 2, _ => exact h.2.2.1
  | 3, _ => exact h.2.2.2

/-- Two Colors with the same channel slots are the same. -/
theorem color_ext {c d : Word} (h : ∀ k < 4, channel c k = channel d k) : c = d := by
  apply BitVec.eq_of_getLsbD_eq
  intro i hi
  have hc := congrArg (fun b : Byte => b.getLsbD (i % 8)) (h (i / 8) (by omega))
  simp only [channel, BitVec.getLsbD_extractLsb', show i % 8 < 8 by omega, decide_true, Bool.true_and] at hc
  rwa [show 8 * (i / 8) + i % 8 = i by omega] at hc

/-! ### The row flip -/

@[simp] theorem length_flippedBytes (s : State) : (flippedBytes s).length = len s := by simp [flippedBytes]

theorem wf_flipRows {s : State} (hm : Memory.wf s.buf) : Memory.wf (flipRows s) := wf_writeBytes hm 0 _

/-- R94's end state, for every offset. -/
theorem readByte_flipRows {s : State} (hm : Memory.wf s.buf) (x : Nat) :
    readByte (flipRows s) x =
      if x < len s then readByte s.buf ((heightN s - 1 - x / bpr s) * bpr s + x % bpr s) else readByte s.buf x := by
  rw [flipRows, readByte_writeBytes hm, length_flippedBytes]
  by_cases h : x < len s
  · rw [if_pos (by omega), if_pos h]
    simp [flippedBytes, List.getD_eq_getElem?_getD, h]
  · rw [if_neg (by omega), if_neg h]

/-! ### The derived values (R26, R187) -/

/-- `LEN` is `HEIGHT` rows of `bpr` bytes. -/
theorem len_eq_rows (s : State) : len s = heightN s * bpr s := by simp [len, bpr, Nat.mul_assoc]

/-- `LEN` is `npix` pixels of `bpp` bytes. -/
theorem len_eq_pixels (s : State) : len s = npix s * bpp s := by simp [len, npix, Nat.mul_comm (heightN s)]

/-- Two states of one geometry have the same derived values. -/
theorem derived_congr {s t : State} (hw : t.width = s.width) (hh : t.height = s.height) (hf : t.format = s.format) :
    bpp t = bpp s ∧ widthN t = widthN s ∧ heightN t = heightN s ∧ bpr t = bpr s ∧ len t = len s ∧ npix t = npix s ∧
      ∀ x y, index t x y = index s x y ∧ (InBounds t x y ↔ InBounds s x y) := by
  simp [bpp, widthN, heightN, bpr, len, npix, index, InBounds, hw, hh, hf]

end Sys2Proof.Laws
end

