-- ==== Sys2Proof/Laws/Rounds.lean ====
section
/-!
SUPPORT. The induction over the rounds of a DECODE, packaged once: the command always answers, what it answers is reached
by rounds, and no DECODE is in progress there.
-/

namespace Sys2Proof.Laws

open Sys2Proof Sys2Proof.Machine

/-- Reached by rounds of a DECODE in progress. -/
inductive Rounds : State → State → Prop where
  | refl (s : State) : Rounds s s
  | head {s s' s'' : State} {t : Transfer} (ht : s.transfer = some t) (hr : transferRound t s = .next s')
      (rest : Rounds s' s'') : Rounds s s''

/-- A property that every round keeps holds wherever rounds lead. -/
theorem Rounds.keeps {P : State → Prop}
    (hP : ∀ s s' t, s.transfer = some t → transferRound t s = .next s' → P s → P s') {s s' : State} (h : Rounds s s')
    (hs : P s) : P s' := by
  induction h with
  | refl => exact hs
  | head ht hr _ ih => exact ih (hP _ _ _ ht hr hs)

/-- How many rounds a DECODE in progress still needs. -/
def roundsLeft (s : State) : Nat :=
  match s.transfer with
  | none => 0
  | some t =>
    match t.phase with
    | .dataType => npix s + 2
    | .chunks => npix s - t.count + 1
    | .finished => 1

theorem roundsLeft_none {s : State} (h : s.transfer = none) : roundsLeft s = 0 := by simp [roundsLeft, h]

/-- A round answers, ends the DECODE or brings its end nearer. -/
theorem transferRound_answers (t : Transfer) (s : State) (ht : s.transfer = some t) :
    ∃ s', transferRound t s = .next s' ∧ roundsLeft s' < roundsLeft s := by
  have raised : ∀ e u, roundsLeft (raise .image e u) = 0 := fun e u => roundsLeft_none rfl
  have pos : 0 < roundsLeft s := by simp only [roundsLeft, ht]; split <;> omega
  rcases transferRound_cases t s with ⟨hp, he | he⟩ | ⟨hp, hc, -, n, h1, -, he | he⟩ | ⟨e, -, he⟩ | ⟨-, he⟩
  · refine ⟨_, he, ?_⟩
    rcases rawPayload_cases t { s with transfer := some t } with ⟨-, hr⟩ | ⟨bs, -, hr⟩ <;> rw [hr]
    · rw [raised]; exact pos
    · simp [roundsLeft, ht, hp]
  · refine ⟨_, he, ?_⟩
    simp only [roundsLeft, rlePayload_transfer, ht, hp]
    show npix s - 0 + 1 < npix s + 2
    omega
  · refine ⟨_, he, ?_⟩
    rcases litChunk_cases n { t with pos := t.pos + 1 } { s with transfer := some { t with pos := t.pos + 1 } } with
      ⟨-, hr⟩ | ⟨-, -, hr⟩ | ⟨hn, bs, -, hr⟩ <;> rw [hr]
    · rw [raised]; exact pos
    · rw [raised]; exact pos
    · simp only [roundsLeft, ht, hp]
      show npix s - (t.count + n) + 1 < npix s - t.count + 1
      omega
  · refine ⟨_, he, ?_⟩
    rcases repChunk_cases n { t with pos := t.pos + 1 } { s with transfer := some { t with pos := t.pos + 1 } } with
      ⟨-, hr⟩ | ⟨-, -, hr⟩ | ⟨hn, bs, -, hr⟩ <;> rw [hr]
    · rw [raised]; exact pos
    · rw [raised]; exact pos
    · simp only [roundsLeft, ht, hp]
      show npix s - (t.count + n) + 1 < npix s - t.count + 1
      omega
  · exact ⟨_, he, by rw [raised]; exact pos⟩
  · exact ⟨_, he, by rw [roundsLeft_none (finishDecode_transfer s t)]; exact pos⟩

/-- With rounds enough, the loop answers a state reached by rounds in which no DECODE is in progress. -/
theorem runTransfer_answers (k : Nat) (s : State) (hk : roundsLeft s ≤ k) :
    ∃ s', runTransfer k s = .next s' ∧ Rounds s s' ∧ s'.transfer = none := by
  induction k generalizing s with
  | zero =>
    refine ⟨s, rfl, .refl s, ?_⟩
    cases ht : s.transfer with
    | none => rfl
    | some t =>
      obtain ⟨_, -, h⟩ := transferRound_answers t s ht
      omega
  | succ k ih =>
    cases ht : s.transfer with
    | none => exact ⟨s, by simp [runTransfer, ht], .refl s, ht⟩
    | some t =>
      obtain ⟨s', hr, hl⟩ := transferRound_answers t s ht
      obtain ⟨s'', h1, h2, h3⟩ := ih s' (by omega)
      exact ⟨s'', by simp [runTransfer, ht, hr, h1], .head ht hr h2, h3⟩

/-- The rounds DECODE allows are enough. -/
theorem roundsLeft_openDecode (s : State) : roundsLeft (openDecode s) ≤ transferRounds (openDecode s) := by
  rcases openDecode_cases s with ⟨e, -, h⟩ | ⟨-, -, -, h⟩ <;> rw [h]
  · rw [roundsLeft_none (raise_image_transfer s e)]; exact Nat.zero_le _
  · simp [roundsLeft, transferRounds]

/-- DECODE always answers, by rounds from the state in which its stream is read, and ends with none in progress. -/
theorem execDecode_answers (s : State) :
    ∃ t, execDecode s = .next t ∧ Rounds (openDecode s) t ∧ t.transfer = none :=
  runTransfer_answers _ _ (roundsLeft_openDecode s)

end Sys2Proof.Laws
end

