-- ==== Sys2Proof/Machine/Text.lean ====
section
/-!
DEFINITION. The textual syntax the spec writes commands and chunks in (30_encoding.md R77, R79). It has no effect on the
machine.
-/

namespace Sys2Proof.Machine

open Sys2Proof

/-- One hexadecimal digit. -/
def hexDigit (n : Nat) : Char := "0123456789ABCDEF".toList.getD n '0'

/-- A byte in a dump is two hex digits (R8). -/
def hexByte (b : Byte) : String := String.ofList [hexDigit (b.toNat / 16), hexDigit (b.toNat % 16)]

/-- Bytes in a dump, separated by spaces. -/
def hexBytes (bs : List Byte) : String := " ".intercalate (bs.map hexByte)

/-- A Color reads `AARRGGBB` from left to right (R77). -/
def colorText (c : Word) : String :=
  "0x" ++ hexByte (channel c 3) ++ hexByte (channel c 2) ++ hexByte (channel c 1) ++ hexByte (channel c 0)

/-- `GRAY` = 1, `BGR` = 3, `BGRA` = 4 (R77); another value is written as a number. -/
def formatText (f : Word) : String :=
  if f = 1#32 then "GRAY" else if f = 3#32 then "BGR" else if f = 4#32 then "BGRA" else toString f.toNat

/-- One line of R77 or R79. `data` is the file of a DECODE or the payload of a chunk; no other instruction shows it. A
data-type code has no text of its own in the spec and shows its mnemonic. -/
def instrText (i : Instr) (data : List Byte) : String :=
  match i with
  | .new width height format =>
    "NEW " ++ toString width.toInt ++ ", " ++ toString height.toInt ++ ", " ++ formatText format
  | .get x y => "GET " ++ toString x.toInt ++ ", " ++ toString y.toInt
  | .set x y color => "SET " ++ toString x.toInt ++ ", " ++ toString y.toInt ++ ", " ++ colorText color
  | .clear => "CLEAR"
  | .flip => "FLIP"
  | .encode rle => "ENCODE " ++ (if rle then "1" else "0")
  | .decode => "DECODE " ++ hexBytes data
  | .lit n => "LIT " ++ toString n ++ ": " ++ hexBytes data
  | .rep n => "REP " ++ toString n ++ ": " ++ hexBytes data
  | .dtRawColor => mnemonicOf .dtRawColor
  | .dtRawGray => mnemonicOf .dtRawGray
  | .dtRleColor => mnemonicOf .dtRleColor
  | .dtRleGray => mnemonicOf .dtRleGray

end Sys2Proof.Machine
end

