-- ==== Sys2Proof/Tests/Slice0.lean ====
section
/-!
SUPPORT. Small tests of the model's own. Expected results come from spec/95_test_vectors.md (the vector is named at each
test) or from the rule named there.
-/

namespace Sys2Proof.Tests

open Sys2Proof Sys2Proof.Machine Sys2Proof.Safety

/-- The next state, if there is one. -/
def seen : Outcome → Option State
  | .next s => some s
  | .fault _ => none
  | .refused _ => none

/-- What a test looks at: one field of the next state. -/
def after {α : Type} (o : Outcome) (f : State → α) : Option α := (seen o).map f

/-- The bytes of the image in the slot. -/
def image (s : State) : List Byte := readBytes s.buf 0 (len s)

/-- Reset, then an image put into the slot. -/
def holding (w h : Word) (f : Byte) (bs : List Byte) : State :=
  { State.reset with valid := true, width := w, height := h, format := f, buf := writeBytes [] 0 bs }

/-- V27's image: BGR 2×1. -/
def bgr21 : State := holding 2#32 1#32 3#8 [0x01#8, 0x02#8, 0x03#8, 0x04#8, 0x05#8, 0x06#8]

/-- A header: data type, width, height, bits per pixel, descriptor (95's HDR). -/
def hdr (dt wl wh hl hh bp ds : Byte) : List Byte := [0, 0, dt, 0, 0, 0, 0, 0, 0, 0, 0, 0, wl, wh, hl, hh, bp, ds]

/-- Reset, with a file on the input stream. -/
def reading (file : List Byte) : State := { State.reset with file := file }

/-- A DECODE in progress: Grayscale 4×1, nothing decoded yet, `rest` the stream. -/
def decoding (phase : Phase) (rest : List Byte) : State :=
  { State.reset with
    width := 4#32, height := 1#32, format := 1#8, file := rest
    transfer := some { header := { hdrUnpack [] with descriptor := 0x20#8 }, pos := 0, count := 0, phase := phase } }

/-! ### WellFormed: one ill-formed term for each check (R65) -/

theorem test_wf_lit_none : (Instr.lit 0).wellFormed = false := by decide
theorem test_wf_lit_over : (Instr.lit 129).wellFormed = false := by decide
theorem test_wf_lit_most : (Instr.lit 128).wellFormed = true := by decide
theorem test_wf_rep_none : (Instr.rep 0).wellFormed = false := by decide
theorem test_wf_rep_over : (Instr.rep 129).wellFormed = false := by decide

/-! ### Words written out from the spec's encodings (R71, R72, R65, R59) -/

theorem test_decode_new : decode (.command 0b00000001#8 2#32 1#32 3#32) = .instr (.new 2#32 1#32 3#32) := by decide
theorem test_decode_get : decode (.command 0b00000010#8 1#32 0#32 9#32) = .instr (.get 1#32 0#32) := by decide
theorem test_decode_set :
    decode (.command 0b00000011#8 1#32 0#32 0x11223344#32) = .instr (.set 1#32 0#32 0x11223344#32) := by decide
theorem test_decode_clear : decode (.command 0b00000100#8 7#32 7#32 7#32) = .instr .clear := by decide
theorem test_decode_flip : decode (.command 0b00000101#8 7#32 7#32 7#32) = .instr .flip := by decide
theorem test_decode_encode : decode (.command 0b00000110#8 2#32 0#32 0#32) = .instr (.encode true) := by decide
theorem test_decode_encode_raw : decode (.command 0b00000110#8 0#32 1#32 1#32) = .instr (.encode false) := by decide
theorem test_decode_decode : decode (.command 0b00000111#8 7#32 7#32 7#32) = .instr .decode := by decide
theorem test_decode_illegal : decode (.command 0x08#8 0#32 0#32 0#32) = .reject (.illegalCommand 0x08#8) := by decide
theorem test_decode_lit : decode (.chunk 0b00000010#8) = .instr (.lit 3) := by decide
theorem test_decode_lit_top : decode (.chunk 0b01111111#8) = .instr (.lit 128) := by decide
theorem test_decode_rep : decode (.chunk 0b10000010#8) = .instr (.rep 3) := by decide
theorem test_decode_rep_top : decode (.chunk 0b11111111#8) = .instr (.rep 128) := by decide
theorem test_decode_raw_color : decode (.dataType 0b00000010#8) = .instr .dtRawColor := by decide
theorem test_decode_raw_gray : decode (.dataType 0b00000011#8) = .instr .dtRawGray := by decide
theorem test_decode_rle_color : decode (.dataType 0b00001010#8) = .instr .dtRleColor := by decide
theorem test_decode_rle_gray : decode (.dataType 0b00001011#8) = .instr .dtRleGray := by decide
theorem test_decode_no_type : decode (.dataType 0x01#8) = .reject (.unsupportedDataType 0x01#8) := by decide

/-! ### One step or one meaning each -/

/-- V18: NEW 2, 2, BGRA from reset. -/
theorem test_new_zero : after (exec (.new 2#32 2#32 4#32) State.reset) image = some (List.replicate 16 0#8) := by decide
/-- V22: the dimensions are tested before the format. -/
theorem test_new_order : after (exec (.new 0#32 1#32 2#32) State.reset) (·.status) = some .invalidDimensions := by decide
/-- V28. -/
theorem test_get_second : after (exec (.get 1#32 0#32) bgr21) (·.result) = some 0xFF060504#32 := by decide
/-- V31: a negative coordinate. -/
theorem test_get_negative : after (exec (.get 0xFFFFFFFF#32 0#32) bgr21) (·.status) = some .outOfBounds := by decide
/-- V32. -/
theorem test_set_pixel :
    after (exec (.set 1#32 0#32 0x11223344#32) bgr21) image = some [0x01#8, 0x02#8, 0x03#8, 0x44#8, 0x33#8, 0x22#8] := by
  decide
/-- V33: out of bounds the write is dropped. -/
theorem test_set_dropped : after (exec (.set 2#32 0#32 0x11223344#32) bgr21) (fun s => (s.status, image s)) =
    some (.ok, [0x01#8, 0x02#8, 0x03#8, 0x04#8, 0x05#8, 0x06#8]) := by decide
/-- V37. -/
theorem test_clear : after (exec .clear bgr21) image = some (List.replicate 6 0#8) := by decide
/-- V38: the middle row stays. -/
theorem test_flip_odd :
    after (exec .flip (holding 2#32 3#32 1#8 [1, 2, 3, 4, 5, 6])) image = some [5, 6, 3, 4, 1, 2] := by decide
/-- V39: the bytes of a pixel keep their order. -/
theorem test_flip_bgr :
    after (exec .flip (holding 1#32 2#32 3#8 [1, 2, 3, 4, 5, 6])) image = some [4, 5, 6, 1, 2, 3] := by decide
/-- V60: a row's last pixel is not compared with the next row's first. -/
theorem test_encode_rle : after (exec (.encode true) (holding 3#32 2#32 1#8 [1, 2, 3, 4, 4, 5])) (·.out) =
    some [hdr 0x0B 3 0 2 0 8 0x20 ++ [0x02, 1, 2, 3, 0x81, 4, 0x00, 5]] := by decide
/-- S1: the raw file. -/
theorem test_encode_raw : after (exec (.encode false) (holding 2#32 1#32 3#8 [0, 0, 0, 0x44, 0x33, 0x22])) (·.out) =
    some [hdr 0x02 2 0 1 0 0x18 0x20 ++ [0, 0, 0, 0x44, 0x33, 0x22]] := by decide
/-- V79: RLE, BGR, bottom-left. -/
theorem test_decode_bottom_left :
    after (exec .decode (reading (hdr 0x0A 2 0 2 0 0x18 0 ++ [0x81, 10, 11, 12, 0x01, 1, 2, 3, 4, 5, 6]))) image =
      some [1, 2, 3, 4, 5, 6, 10, 11, 12, 10, 11, 12] := by decide
/-- V113: the count is tested before the payload is read. -/
theorem test_decode_overrun :
    after (exec .decode (reading (hdr 0x0B 2 0 1 0 8 0x20 ++ [0x02, 1, 2]))) (·.status) = some .overrunError := by decide
/-- R143's example. -/
theorem test_lit : after (exec (.lit 3) (decoding .chunks [0x0A, 0x0B, 0x0C]))
    (fun s => (readBytes s.buf 0 4, s.transfer.map (·.count))) = some ([0x0A, 0x0B, 0x0C, 0], some 3) := by decide
/-- R142: a chunk past the last pixel. -/
theorem test_lit_overrun : after (exec (.lit 5) (decoding .chunks [1, 2, 3, 4, 5])) (·.status) = some .overrunError := by
  decide
/-- R144: one pixel, three times. -/
theorem test_rep : after (exec (.rep 3) (decoding .chunks [0x07])) (fun s => readBytes s.buf 0 4) = some [7, 7, 7, 0] := by
  decide
/-- R146: no payload byte. -/
theorem test_rep_short : after (exec (.rep 3) (decoding .chunks [])) (·.status) = some .ioError := by decide
/-- R139. -/
theorem test_raw_color : after (exec .dtRawColor (decoding .dataType [1, 2, 3, 4, 9])) image = some [1, 2, 3, 4] := by decide
/-- R139, R146: one byte short. -/
theorem test_raw_gray : after (exec .dtRawGray (decoding .dataType [1, 2, 3])) (·.status) = some .ioError := by decide
/-- R138, R140. -/
theorem test_rle_color : after (exec .dtRleColor (decoding .dataType [])) (fun s => s.transfer.map (·.phase)) =
    some (some .chunks) := by decide
/-- R138, R140. -/
theorem test_rle_gray : after (exec .dtRleGray (decoding .dataType [])) (fun s => s.transfer.map (·.count)) =
    some (some 0) := by decide
/-- V123: an unassigned code. -/
theorem test_illegal : after (step { bgr21 with script := [.issue 0x09#8 [] false] }) (fun s => (s.status, image s)) =
    some (.illegalCommand, [1, 2, 3, 4, 5, 6]) := by decide
/-- R19, R13: an issue runs the command whole. -/
theorem test_issue : after (step { bgr21 with arg0 := 1#32, script := [.issue 0x02#8 [] false] }) (·.result) =
    some 0xFF060504#32 := by decide
/-- R65, R140: a chunk of a DECODE in progress is fetched from the stream. -/
theorem test_step_chunk : after (step (decoding .chunks [0x82, 5])) (fun s => readBytes s.buf 0 4) = some [5, 5, 5, 0] := by
  decide
/-- R79's example. -/
theorem test_text_rep : instrText (.rep 3) [0x10, 0x20, 0x30] = "REP 3: 10 20 30" := by decide

/-! ### Witnesses: for each obligation with hypotheses, states and operands that meet them, clause by clause, at the
clauses' boundaries -/

/-- `s` with one move of the host pending. -/
def asked (m : HostMove) (s : State) : State := { s with script := [m] }

/-- A block of another capacity. -/
def capped (n : Nat) (s : State) : State := { s with cfg := { bufCap := n } }

/-- An answer is a next state, and it satisfies `p`. -/
def Answers (o : Outcome) (p : State → Bool) : Prop := (seen o).any p = true

theorem answers_next {o : Outcome} {p : State → Bool} (h : Answers o p) : ∃ t, o = .next t ∧ p t = true := by
  unfold Answers seen at h
  cases o <;> simp_all

/-- A file of 2×1 BGR pixels, raw. -/
def rawFile : List Byte := hdr 0x02 2 0 1 0 0x18 0x20 ++ [1, 2, 3, 4, 5, 6]

/-- A file of 1×2 Grayscale pixels as two chunks, rows bottom first. -/
def rleFile : List Byte := hdr 0x0B 1 0 2 0 8 0 ++ [0x00, 7, 0x80, 8]

theorem witness_DecodeUndoesEncode : (Instr.lit 128).wellFormed = true ∧ (Instr.rep 1).wellFormed = true ∧
    (Instr.encode true).wellFormed = true := by decide

theorem witness_EveryByteIsAChunkHeader : (0x7F#8).toNat < 128 ∧ 128 ≤ (0x80#8).toNat := by decide

theorem witness_DecoderFollowsOpcodeTable :
    (∃ r ∈ opcodeTable, r.admits .chunk 0x80#8 = true) ∧ (∀ r ∈ opcodeTable, r.admits .command 0x08#8 = false) := by
  decide

theorem witness_UnassignedCodeSetsStatus : AtRest (asked (.issue 0x08#8 [1] true) bgr21) ∧
    (asked (.issue 0x08#8 [1] true) bgr21).script = .issue 0x08#8 [1] true :: [] ∧ 8 ≤ (0x08#8).toNat ∧
    (asked (.issue 0x00#8 [] false) bgr21).script = .issue 0x00#8 [] false :: [] ∧ (0x00#8).toNat = 0 := by decide

theorem witness_StepRunsIssuedCommand : AtRest (asked (.issue 0x07#8 rawFile false) bgr21) ∧
    (asked (.issue 0x07#8 rawFile false) bgr21).script = .issue 0x07#8 rawFile false :: [] ∧
    decode (.command 0x07#8 bgr21.arg0 bgr21.arg1 bgr21.arg2) = .instr .decode := by decide

theorem witness_StepRunsStreamInstruction :
    (∃ t, (State.reset.withFetchWord 8 0x0B).transfer = some t ∧ t.phase = .dataType ∧
      decode (.dataType t.header.dataType) = .instr .dtRleGray) ∧
    (∃ t, (decoding .chunks [0x83, 5]).transfer = some t ∧ t.phase = .chunks ∧
      t.count < npix (decoding .chunks [0x83, 5]) ∧ (decoding .chunks [0x83, 5]).file[t.pos]? = some 0x83#8 ∧
      decode (.chunk 0x83#8) = .instr (.rep 4)) :=
  ⟨⟨_, rfl, by decide⟩, ⟨_, rfl, by decide⟩⟩

/-- A drain of one file of two, and of more files than there are. -/
theorem witness_HostMovesTouchTheirRegister : AtRest bgr21 ∧ bgr21.script = [] ∧
    (asked (.writeArg0 1#32) bgr21).script = .writeArg0 1#32 :: [] ∧
    (asked (.writeArg1 1#32) bgr21).script = .writeArg1 1#32 :: [] ∧
    (asked (.writeArg2 1#32) bgr21).script = .writeArg2 1#32 :: [] ∧
    (AtRest (asked (.drain 1) { bgr21 with out := [[1], [2]] }) ∧
      (asked (.drain 1) { bgr21 with out := [[1], [2]] }).script = .drain 1 :: [] ∧
      1 < (asked (.drain 1) { bgr21 with out := [[1], [2]] }).out.length) ∧
    ((asked (.drain 1) bgr21).script = .drain 1 :: [] ∧ (asked (.drain 1) bgr21).out.length < 1) := by decide

/-- R28: a drain removes the oldest file and keeps the rest. -/
theorem test_drain : after (step (asked (.drain 1) { bgr21 with out := [[1], [2]] })) (·.out) = some [[2]] := by decide

theorem witness_HostResetClears : AtRest (asked .reset bgr21) ∧ (asked .reset bgr21).script = .reset :: [] := by decide

/-- The chunk that completes the image, its payload the last byte of the stream. -/
theorem witness_StepAdvancesByChunkSize : ∃ t, (decoding .chunks [0x83, 5]).transfer = some t ∧ t.phase = .chunks ∧
    t.count < npix (decoding .chunks [0x83, 5]) ∧ (decoding .chunks [0x83, 5]).file[t.pos]? = some 0x83#8 ∧
    t.count + ((0x83#8).toNat % 128 + 1) ≤ npix (decoding .chunks [0x83, 5]) ∧
    t.pos + chunkSize (bpp (decoding .chunks [0x83, 5])) 0x83#8 ≤ (decoding .chunks [0x83, 5]).file.length :=
  ⟨_, rfl, by decide⟩

/-- Reset, an image that fills the buffer memory, and a DECODE in progress. -/
theorem witness_StepKeepsInvariant : Inv State.reset ∧ Inv (capped 6 (asked (.issue 0x05#8 [] false) bgr21)) ∧
    Inv (decoding .chunks [0x83, 5]) ∧ (∃ t, step (decoding .chunks [0x83, 5]) = .next t) :=
  ⟨by decide, by decide, by decide, ⟨_, rfl⟩⟩

theorem witness_StepKeepsRest : AtRest (asked (.issue 0x05#8 [] false) bgr21) ∧
    ∃ t, step (asked (.issue 0x05#8 [] false) bgr21) = .next t := ⟨rfl, ⟨_, rfl⟩⟩

theorem witness_CapacityNeverChanges : ∃ t, step (asked .reset bgr21) = .next t := ⟨_, rfl⟩

theorem witness_ValidChangesOnlyBy :
    AtRest (asked (.issue 0x07#8 rawFile false) State.reset) ∧ State.reset.valid = false ∧
    Answers (step (asked (.issue 0x07#8 rawFile false) State.reset)) (·.valid) ∧
    AtRest (asked (.issue 0x07#8 [] false) bgr21) ∧ bgr21.valid = true ∧
    Answers (step (asked (.issue 0x07#8 [] false) bgr21)) (fun t => !t.valid) ∧
    Answers (step (asked .reset bgr21)) (fun t => !t.valid) :=
  ⟨rfl, rfl, rfl, rfl, rfl, rfl, rfl⟩

theorem witness_ResultChangesOnlyByGet : AtRest (asked (.issue 0x02#8 [] false) bgr21) ∧
    Answers (step (asked (.issue 0x02#8 [] false) bgr21)) (fun t => t.result ≠ bgr21.result) := by
  unfold Answers; decide

theorem witness_OutChangesOnlyByEncodeOrHost : AtRest (asked (.issue 0x06#8 [] false) bgr21) ∧
    Answers (step (asked (.issue 0x06#8 [] false) bgr21)) (fun t => t.out ≠ bgr21.out) ∧
    Answers (step (asked (.drain 1) { bgr21 with out := [[1]] })) (fun t => t.out ≠ [[1]]) := by
  unfold Answers; decide

theorem witness_GeometryFixedByOthers : ∃ t, exec .flip bgr21 = .next t := ⟨_, rfl⟩

/-- An image of 2×2 Grayscale pixels. -/
def gray22 : State := holding 2#32 2#32 1#8 [1, 1, 2, 3]

theorem witness_IndexProperties : 0 < gray22.width.toInt ∧ 0 < gray22.height.toInt ∧ FormatCode (bpp gray22) ∧
    InBounds gray22 0#32 0#32 ∧ InBounds gray22 1#32 1#32 ∧ InBounds gray22 (0#32 + 1#32) 0#32 ∧
    ((1#32).toInt = gray22.width.toInt - 1 ∧ InBounds gray22 1#32 0#32 ∧ InBounds gray22 0#32 (0#32 + 1#32)) ∧
    3 < len gray22 := by decide

theorem witness_ConverterLaws : Memory.wf bgr21.buf ∧ FormatCode 1 ∧ FormatCode 3 ∧ FormatCode 4 := by decide

/-- The largest image, one byte too many, both sizes at 0, a format code beside the legal ones. -/
theorem witness_NewCommand :
    (0 < (2#32).toInt ∧ 0 < (1#32).toInt ∧ FormatCode (3#32).toNat ∧
      (1#32).toInt * (2#32).toInt * ((3#32).toNat : Int) ≤ ((capped 6 bgr21).cfg.bufCap : Int)) ∧
    ((0#32).toInt ≤ 0 ∧ (0x80000000#32).toInt ≤ 0) ∧ ¬ FormatCode (2#32).toNat ∧ ¬ FormatCode (0x101#32).toNat ∧
    ((capped 5 bgr21).cfg.bufCap : Int) < (1#32).toInt * (2#32).toInt * ((3#32).toNat : Int) := by decide

theorem witness_GetCommand : (bgr21.valid = true ∧ InBounds bgr21 1#32 0#32) ∧ State.reset.valid = false ∧
    ¬ InBounds bgr21 2#32 0#32 ∧ ¬ InBounds bgr21 0#32 1#32 ∧ ¬ InBounds bgr21 0xFFFFFFFF#32 0#32 := by decide

theorem witness_SetCommand : Memory.wf bgr21.buf ∧ (bgr21.valid = true ∧ InBounds bgr21 1#32 0#32) ∧
    ¬ InBounds bgr21 2#32 0#32 ∧ (Memory.wf State.reset.buf ∧ State.reset.valid = false) := by decide

theorem witness_ClearCommand : bgr21.valid = true ∧ State.reset.valid = false := by decide

theorem witness_FlipCommand : (Memory.wf gray22.buf ∧ gray22.valid = true) ∧
    (Memory.wf State.reset.buf ∧ State.reset.valid = false) ∧ 1 < heightN gray22 ∧ 1 < bpr gray22 ∧
    len gray22 ≤ 4 := by decide

theorem witness_FlipLoopReachesEndState : Memory.wf gray22.buf := by decide

theorem witness_FlipTwiceRestores : Memory.wf gray22.buf ∧ gray22.valid = true := by decide

theorem witness_NoImageFails : State.reset.valid = false := by decide

theorem witness_SetThenGet : Memory.wf gray22.buf ∧ FormatCode (bpp gray22) ∧ gray22.valid = true ∧
    (InBounds gray22 1#32 1#32 ∧ InBounds gray22 0#32 1#32 ∧ (0#32, 1#32) ≠ (1#32, 1#32)) ∧
    ¬ InBounds gray22 2#32 1#32 := by decide

theorem witness_GetAfterConstruction :
    Answers (exec .clear bgr21) (fun t => t.status = .ok ∧ FormatCode (bpp t) ∧ InBounds t 1#32 0#32) ∧
    Answers (exec (.new 2#32 1#32 4#32) State.reset) (fun t => t.status = .ok ∧ FormatCode (bpp t) ∧ InBounds t 1#32 0#32) := by
  unfold Answers; decide

theorem witness_CommandsIdempotent : Memory.wf bgr21.buf ∧ Answers (exec (.new 2#32 1#32 4#32) bgr21) (·.status = .ok) ∧
    Answers (exec (.get 1#32 0#32) bgr21) (·.status = .ok) ∧ Answers (exec (.set 1#32 0#32 9#32) bgr21) (·.status = .ok) ∧
    Answers (exec .clear bgr21) (·.status = .ok) := by
  unfold Answers; decide

/-- The greatest size ENCODE takes and the least it does not, for each dimension. -/
theorem witness_EncodeCommand : State.reset.valid = false ∧
    ((holding 32768#32 1#32 1#8 []).valid = true ∧ 32767 < (holding 32768#32 1#32 1#8 []).width.toInt) ∧
    32767 < (holding 1#32 32768#32 1#8 []).height.toInt ∧
    ((holding 32767#32 32767#32 1#8 []).valid = true ∧ (holding 32767#32 32767#32 1#8 []).width.toInt ≤ 32767 ∧
      (holding 32767#32 32767#32 1#8 []).height.toInt ≤ 32767 ∧ (holding 32767#32 32767#32 1#8 []).ioFail = false) ∧
    ({ bgr21 with ioFail := true }.valid = true ∧ { bgr21 with ioFail := true }.width.toInt ≤ 32767 ∧
      { bgr21 with ioFail := true }.height.toInt ≤ 32767 ∧ { bgr21 with ioFail := true }.ioFail = true) := by decide

theorem witness_HeaderBytes : 0 < (holding 32767#32 1#32 4#8 []).width.toInt ∧
    (holding 32767#32 1#32 4#8 []).width.toInt ≤ 32767 ∧ 0 < (holding 32767#32 1#32 4#8 []).height.toInt ∧
    (holding 32767#32 1#32 4#8 []).height.toInt ≤ 32767 ∧ FormatCode (bpp (holding 32767#32 1#32 4#8 [])) := by decide

theorem witness_RawFileLayout : bgr21.valid = true ∧ bgr21.width.toInt ≤ 32767 ∧ bgr21.height.toInt ≤ 32767 ∧
    bgr21.ioFail = false := by decide

theorem witness_RepRunLength : 2 ≤ 2 ∧ pixel gray22 0 = pixel gray22 (0 + 1) := by decide

theorem witness_LitRunLength : 2 ≤ 2 ∧ pixel gray22 2 ≠ pixel gray22 (2 + 1) := by decide

/-- A row of two equal pixels, a row of two different ones, and the last pixel of a row. -/
theorem witness_ChunkProperties :
    (0 < npix gray22 ∧ 2 ≤ chunkLimit gray22 0 ∧ pixel gray22 0 = pixel gray22 (0 + 1) ∧
      classify gray22 0 (chunkLimit gray22 0) = (.rep, 2)) ∧
    (2 < npix gray22 ∧ 2 ≤ chunkLimit gray22 2 ∧ pixel gray22 2 ≠ pixel gray22 (2 + 1) ∧
      classify gray22 2 (chunkLimit gray22 2) = (.lit, 2)) ∧
    (3 < npix gray22 ∧ chunkLimit gray22 3 = 1 ∧ classify gray22 3 (chunkLimit gray22 3) = (.lit, 1)) := by decide

/-- V60's stream as its chunks: a whole row, a pair, the last pixel of the image. -/
theorem test_packed_from : PackedFrom (holding 3#32 2#32 1#8 [1, 2, 3, 4, 4, 5]) 0 [(.lit, 3), (.rep, 2), (.lit, 1)]
    [0x02, 1, 2, 3, 0x81, 4, 0x00, 5] :=
  ⟨by decide, by decide, by decide, [0x81, 4, 0x00, 5],
    ⟨by decide, by decide, by decide, [0x00, 5],
      ⟨by decide, by decide, by decide, [], ⟨by decide, rfl⟩, by decide⟩, by decide⟩, by decide⟩

theorem witness_ClassifyLoopAgrees : 1 ≤ chunkLimit gray22 3 ∧ chunkLimit gray22 3 = 1 := by decide

theorem witness_HeaderRoundTrip : (hdr 0x02 2 0 1 0 0x18 0x20).length = 18 := by decide

/-- The chunk that completes the image, its payload the last bytes of the stream. -/
theorem witness_LitStoresPixels : Memory.wf (decoding .chunks [1, 2, 3, 4]).buf ∧
    ∃ t, (decoding .chunks [1, 2, 3, 4]).transfer = some t ∧ t.count + 4 ≤ npix (decoding .chunks [1, 2, 3, 4]) ∧
      t.pos + 4 * bpp (decoding .chunks [1, 2, 3, 4]) ≤ (decoding .chunks [1, 2, 3, 4]).file.length :=
  ⟨by decide, _, rfl, by decide⟩

theorem witness_RepRepeatsPixel : Memory.wf (decoding .chunks [1]).buf ∧
    ∃ t, (decoding .chunks [1]).transfer = some t ∧ t.count + 4 ≤ npix (decoding .chunks [1]) ∧
      t.pos + bpp (decoding .chunks [1]) ≤ (decoding .chunks [1]).file.length :=
  ⟨by decide, _, rfl, by decide⟩

/-- One pixel too many. -/
theorem witness_OverrunStopsDecode : ∃ t, (decoding .chunks []).transfer = some t ∧
    npix (decoding .chunks []) < t.count + 5 := ⟨_, rfl, by decide⟩

/-- One byte too few. -/
theorem witness_ShortChunkIsIoError :
    (∃ t, (decoding .chunks [1, 2, 3]).transfer = some t ∧ t.count + 4 ≤ npix (decoding .chunks [1, 2, 3]) ∧
      (decoding .chunks [1, 2, 3]).file.length < t.pos + 4 * bpp (decoding .chunks [1, 2, 3])) ∧
    (∃ t, (decoding .chunks []).transfer = some t ∧ t.count + 4 ≤ npix (decoding .chunks []) ∧
      (decoding .chunks []).file.length < t.pos + bpp (decoding .chunks [])) ∧
    (∃ t, (decoding .chunks []).transfer = some t ∧ t.phase = .chunks ∧ t.count < npix (decoding .chunks []) ∧
      (decoding .chunks []).file.length ≤ t.pos) :=
  ⟨⟨_, rfl, by decide⟩, ⟨_, rfl, by decide⟩, ⟨_, rfl, by decide⟩⟩

theorem witness_RawPayloadFillsBuffer : Memory.wf (decoding .dataType [1, 2, 3, 4]).buf ∧
    (∃ t, (decoding .dataType [1, 2, 3, 4]).transfer = some t ∧
      t.pos + len (decoding .dataType [1, 2, 3, 4]) ≤ (decoding .dataType [1, 2, 3, 4]).file.length) ∧
    (∃ t, (decoding .dataType [1, 2, 3]).transfer = some t ∧
      (decoding .dataType [1, 2, 3]).file.length < t.pos + len (decoding .dataType [1, 2, 3])) :=
  ⟨by decide, ⟨_, rfl, by decide⟩, ⟨_, rfl, by decide⟩⟩

theorem witness_RleCodesStartChunkLoop : ∃ t, (decoding .dataType []).transfer = some t := ⟨_, rfl⟩

theorem witness_StreamInstructionsNeedDecode : AtRest State.reset := by decide

/-- Each test of DECODE at its boundary: a header one byte short; 7 and 40 bits per pixel; a width of 0, a height of
−32768; one byte over the capacity; a data-type code beside the legal ones. -/
theorem witness_DecodeTestsInOrder :
    { reading rawFile with ioFail := true }.ioFail = true ∧
    ((reading (rawFile.take 17)).ioFail = false ∧ (rawFile.take 17).length < 18) ∧
    (18 ≤ rawFile.length ∧ ¬ FormatCode (fileFormat (hdr 2 2 0 1 0 7 0x20)) ∧
      ¬ FormatCode (fileFormat (hdr 2 2 0 1 0 40 0x20))) ∧
    (FormatCode (fileFormat (hdr 2 0 0 1 0 8 0x20)) ∧ fileWidth (hdr 2 0 0 1 0 8 0x20) ≤ 0 ∧
      fileHeight (hdr 2 2 0 0 0x80 8 0x20) ≤ 0) ∧
    (FormatCode (fileFormat rawFile) ∧ 0 < fileWidth rawFile ∧ 0 < fileHeight rawFile ∧
      ((capped 5 State.reset).cfg.bufCap : Int) < fileHeight rawFile * fileWidth rawFile * (fileFormat rawFile : Int)) ∧
    (fileAccepted 6 (hdr 1 2 0 1 0 0x18 0x20) ∧ ((hdr 1 2 0 1 0 0x18 0x20).getD 2 0#8).toNat ∉ [2, 3, 10, 11]) := by decide

/-- A file of 2×1 Grayscale pixels, RLE (95's `HDR(0B, 2, 1, 08, 20)`). -/
def rle21 (payload : List Byte) : List Byte := hdr 0x0B 2 0 1 0 8 0x20 ++ payload

/-- V107: a raw payload one byte short. -/
theorem witness_DecodeTestsInOrder_raw : (reading (rawFile.take 23)).ioFail = false ∧
    fileAccepted (reading (rawFile.take 23)).cfg.bufCap (rawFile.take 23) ∧ ((rawFile.take 23).getD 2 0#8).toNat = 2 ∧
    (rawFile.take 23).length <
      18 + (fileHeight (rawFile.take 23)).toNat * (fileWidth (rawFile.take 23)).toNat * fileFormat (rawFile.take 23) := by
  decide

/-- V109, V108: no header byte, after one pixel and at the start. -/
theorem witness_DecodeTestsInOrder_header : (reading (rle21 [0x00, 1])).ioFail = false ∧
    fileAccepted (reading (rle21 [0x00, 1])).cfg.bufCap (rle21 [0x00, 1]) ∧ ((rle21 [0x00, 1]).getD 2 0#8).toNat = 11 ∧
    streamChunkOk (fileFormat (rle21 [0x00, 1])) (.lit, 1, [1]) ∧ 1 < filePixels (rle21 [0x00, 1]) ∧
    (rle21 [0x00, 1]).drop 18 = ([(.lit, 1, [1])].map streamChunkBytes).flatten ++ [] ∧
    0 < filePixels (rle21 []) ∧ (rle21 []).drop 18 = ([].map streamChunkBytes).flatten ++ [] := by decide

/-- V114, V113: a chunk one pixel too long, after one pixel and, its payload cut short too, at the start. -/
theorem witness_DecodeTestsInOrder_overrun :
    (rle21 [0x00, 1, 0x81, 2]).drop 18 = ([(.lit, 1, [1])].map streamChunkBytes).flatten ++ 0x81 :: [2] ∧
    filePixels (rle21 [0x00, 1, 0x81, 2]) < 1 + ((0x81#8).toNat % 128 + 1) ∧
    (rle21 [0x02, 1, 2]).drop 18 = ([].map streamChunkBytes).flatten ++ 0x02 :: [1, 2] ∧
    filePixels (rle21 [0x02, 1, 2]) < 0 + ((0x02#8).toNat % 128 + 1) := by decide

/-- V110, V111: the payload of a LIT and of a REP one byte short. -/
theorem witness_DecodeTestsInOrder_payload :
    (rle21 [0x01, 5]).drop 18 = ([].map streamChunkBytes).flatten ++ 0x01 :: [5] ∧
    0 + ((0x01#8).toNat % 128 + 1) ≤ filePixels (rle21 [0x01, 5]) ∧
    ([0x01, 5] : List Byte).length < chunkSize (fileFormat (rle21 [0x01, 5])) 0x01#8 ∧
    0 + ((0x81#8).toNat % 128 + 1) ≤ filePixels (hdr 0x0A 2 0 1 0 0x18 0x20 ++ [0x81, 5, 6]) ∧
    ([0x81, 5, 6] : List Byte).length < chunkSize (fileFormat (hdr 0x0A 2 0 1 0 0x18 0x20 ++ [0x81, 5, 6])) 0x81#8 := by
  decide

/-- The payload ends with the file, the image fills the buffer memory. -/
theorem witness_DecodeRawFile : (capped 6 (reading rawFile)).ioFail = false ∧
    fileAccepted (capped 6 (reading rawFile)).cfg.bufCap rawFile ∧ (rawFile.getD 2 0#8).toNat = 2 ∧
    18 + (fileHeight rawFile).toNat * (fileWidth rawFile).toNat * fileFormat rawFile ≤ rawFile.length := by decide

theorem witness_DecodeRleFile : (reading rleFile).ioFail = false ∧ fileAccepted (reading rleFile).cfg.bufCap rleFile ∧
    (rleFile.getD 2 0#8).toNat = 11 ∧
    (∀ c ∈ [(.lit, 1, [7]), (.rep, 1, [8])], streamChunkOk (fileFormat rleFile) c) ∧
    (([(.lit, 1, [7]), (.rep, 1, [8])] : List StreamChunk).map (fun c => c.2.1)).sum =
      filePixels rleFile ∧
    rleFile.drop 18 = (([(.lit, 1, [7]), (.rep, 1, [8])] : List StreamChunk).map streamChunkBytes).flatten ++ [] := by
  decide

theorem witness_DecodeDependsOnFileOnly : (reading rawFile).cfg = { bgr21 with file := rawFile }.cfg ∧
    (reading rawFile).file = { bgr21 with file := rawFile }.file ∧
    (reading rawFile).ioFail = { bgr21 with file := rawFile }.ioFail := by decide

theorem witness_TrailingBytesIgnored : Answers (exec .decode (reading rleFile)) (·.status = .ok) := by
  unfold Answers; decide

/-- A full buffer memory, and a block that holds another image. -/
theorem witness_RoundTripRaw : Inv (capped 6 bgr21) ∧ (capped 6 bgr21).valid = true ∧
    (capped 6 bgr21).width.toInt ≤ 32767 ∧ (capped 6 bgr21).height.toInt ≤ 32767 ∧ (capped 6 bgr21).ioFail = false ∧
    (capped 6 { gray22 with file := rawFile }).cfg = (capped 6 bgr21).cfg ∧ gray22.ioFail = false := by decide

theorem witness_RoundTripRle : Inv (capped 4 gray22) ∧ (capped 4 gray22).valid = true ∧
    (capped 4 gray22).width.toInt ≤ 32767 ∧ (capped 4 gray22).height.toInt ≤ 32767 ∧ (capped 4 gray22).ioFail = false := by
  decide

theorem witness_DecodeIsItsSteps : (openDecode (reading rleFile)).transfer.isSome = true := by decide

end Sys2Proof.Tests
end

