-- ==== Sys2Proof/Proofs/Invariant.lean ====
section
/-!
PROOFS. The invariant of the machine (Sys2Proof/Safety.lean) holds after reset and is kept by every step. The layers, in
order: what an image in the slot means for the bytes a command may write; the invariant between commands and under the
shared operations; the rounds of a DECODE; the commands; the host's moves; the step.
-/

namespace Sys2Proof.Proofs

open Sys2Proof Sys2Proof.Machine Sys2Proof.Safety Sys2Proof.Laws

/-! ### When the tests pass -/

/-- NEW's tests all pass exactly where the operands describe an image that fits (R81). -/
theorem newStatus_eq_ok {c : Config} {w h f : Word} :
    newStatus c w h f = .ok ↔ 0 < w.toInt ∧ 0 < h.toInt ∧ FormatCode f.toNat ∧
      h.toInt.toNat * w.toInt.toNat * f.toNat ≤ c.bufCap := by
  unfold newStatus
  by_cases hdim : w.toInt ≤ 0 ∨ h.toInt ≤ 0
  · simp only [if_pos hdim, reduceCtorEq, false_iff]; omega
  · obtain ⟨hw, hh⟩ : 0 < w.toInt ∧ 0 < h.toInt := by omega
    by_cases hfmt : FormatCode f.toNat <;> simp [hdim, hw, hh, hfmt]

/-- DECODE's header tests all pass exactly where the header describes an image that fits (R135 to R137). -/
theorem headerStatus_eq_ok {c : Config} {h : Header} :
    headerStatus c h = .ok ↔ 0 < h.width.toInt ∧ 0 < h.height.toInt ∧ FormatCode (headerFormat h).toNat ∧
      h.height.toInt.toNat * h.width.toInt.toNat * (headerFormat h).toNat ≤ c.bufCap := by
  unfold headerStatus
  by_cases hfmt : FormatCode (headerFormat h).toNat
  · by_cases hdim : h.width.toInt ≤ 0 ∨ h.height.toInt ≤ 0
    · simp only [hfmt, not_true, if_false, if_pos hdim, reduceCtorEq, false_iff]; omega
    · obtain ⟨hw, hh⟩ : 0 < h.width.toInt ∧ 0 < h.height.toInt := by omega
      simp [hdim, hw, hh, hfmt]
  · simp [hfmt]

/-! ### The bytes of an image -/

/-- `k` more pixels after the first `c` lie in the buffer if the image has that many. -/
theorem pixels_le_len {s : State} {c k : Nat} (h : c + k ≤ npix s) : c * bpp s + k * bpp s ≤ len s := by
  rw [len_eq_pixels, ← Nat.add_mul]
  exact Nat.mul_le_mul_right _ h

/-- R87: the bytes of a pixel in bounds lie in the buffer. -/
theorem index_add_bpp_le_len {s : State} {x y : Word} (h : InBounds s x y) : index s x y + bpp s ≤ len s := by
  obtain ⟨⟨hx0, hx⟩, hy0, hy⟩ := h
  have hxN : x.toInt.toNat + 1 ≤ widthN s := by unfold widthN; omega
  have hyN : y.toInt.toNat + 1 ≤ heightN s := by unfold heightN; omega
  calc index s x y + bpp s
      = y.toInt.toNat * bpr s + (x.toInt.toNat + 1) * bpp s := by rw [index]; ring
    _ ≤ y.toInt.toNat * bpr s + bpr s := Nat.add_le_add_left (Nat.mul_le_mul_right _ hxN) _
    _ = (y.toInt.toNat + 1) * bpr s := by ring
    _ ≤ len s := by rw [len_eq_rows]; exact Nat.mul_le_mul_right _ hyN

/-- Bytes written inside a bound leave every listed byte inside it. -/
theorem lt_of_mem_writeBytes {m : Memory} {a n : Nat} {bs : List Byte} (hm : ∀ c ∈ m, c.1 < n)
    (hn : a + bs.length ≤ n) : ∀ c ∈ writeBytes m a bs, c.1 < n := by
  intro c hc
  rcases mem_writeBytes hc with h | h
  · exact hm c h
  · omega

/-- The row flip lists no byte outside the image. -/
theorem lt_len_of_mem_flipRows {s : State} (hb : ∀ c ∈ s.buf, c.1 < len s) : ∀ c ∈ flipRows s, c.1 < len s :=
  lt_of_mem_writeBytes hb (by simp)

/-- A slot keeps its image when its bytes are replaced by others inside [0, `LEN`). -/
theorem imageOk_setBuf {s : State} {m : Memory} (h : ImageOk s) (hb : ∀ c ∈ m, c.1 < len s) :
    ImageOk (setBuf m s) := by
  obtain ⟨hw, hh, hf, hl, -⟩ := h
  exact ⟨hw, hh, hf, hl, hb⟩

/-- In particular when bytes are written inside [0, `LEN`). -/
theorem imageOk_writeBytes {s : State} {a : Nat} {bs : List Byte} (h : ImageOk s) (hlen : a + bs.length ≤ len s) :
    ImageOk (setBuf (writeBytes s.buf a bs) s) := by
  have ⟨_, _, _, _, hin⟩ := h
  exact imageOk_setBuf h (lt_of_mem_writeBytes hin hlen)

/-! ### The invariant between commands, and under the shared operations -/

/-- With no DECODE in progress the invariant is about the parameter and the slot alone. -/
theorem inv_iff_of_atRest {s : State} (hr : AtRest s) :
    Inv s ↔ s.cfg.Ok ∧ Memory.wf s.buf ∧ (s.valid = true → ImageOk s) := by
  simp [Safety.Inv, show s.transfer = none from hr]

/-- With an empty slot and no DECODE in progress any canonical buffer will do. -/
theorem inv_of_invalid {s : State} (hc : s.cfg.Ok) (hm : Memory.wf s.buf) (hv : s.valid = false) (hr : AtRest s) :
    Inv s :=
  (inv_iff_of_atRest hr).2 ⟨hc, hm, by simp [hv]⟩

/-- R166: a DECODE that fails leaves a sound state, whatever it leaves in the slot. -/
theorem inv_raise_image {s : State} (h : s.cfg.Ok) (e : Status) : Inv (raise .image e s) :=
  inv_of_invalid h (wf_writeBytes wf_nil 0 _) rfl rfl

/-- R181: so does a reset by the host. -/
theorem inv_hostReset {s : State} (h : s.cfg.Ok) : Inv (hostReset s) :=
  inv_of_invalid h (wf_writeBytes wf_nil 0 _) rfl rfl

theorem inv_latch {s : State} (h : Inv s) (hr : AtRest s) (code : Byte) (file : List Byte) (ioFail : Bool) :
    Inv (latch code file ioFail s) :=
  (inv_iff_of_atRest (s := latch code file ioFail s) hr).2 ((inv_iff_of_atRest hr).1 h)

theorem inv_closeStreams {s : State} (h : Inv s) (hr : AtRest s) : Inv (closeStreams s) :=
  (inv_iff_of_atRest (s := closeStreams s) hr).2 ((inv_iff_of_atRest hr).1 h)

theorem inv_settle {s : State} (h : Inv s) : Inv (settle s) := by
  cases ht : s.transfer with
  | none => rw [settle_of_none ht]; exact inv_closeStreams h ht
  | some t => rw [settle_of_some ht]; exact h

/-- A valid slot's buffer is canonical and lists no byte outside [0, `LEN`). -/
theorem buf_of_inv {s : State} (h : Inv s) (hv : s.valid = true) : Memory.wf s.buf ∧ ∀ c ∈ s.buf, c.1 < len s := by
  obtain ⟨-, hm, hi, -⟩ := h
  obtain ⟨-, -, -, -, hin⟩ := hi hv
  exact ⟨hm, hin⟩

/-- Rewriting a valid image's bytes inside [0, `LEN`) keeps the invariant. -/
theorem inv_setBuf {s : State} {m : Memory} (h : Inv s) (hv : s.valid = true) (hm : Memory.wf m)
    (hb : ∀ c ∈ m, c.1 < len s) : Inv (setBuf m s) := by
  obtain ⟨hc, -, hi, ht⟩ := h
  refine ⟨hc, hm, fun _ => imageOk_setBuf (hi hv) hb, fun t htm => ?_⟩
  obtain ⟨hnv, -⟩ := ht t htm
  simp [hv] at hnv

/-! ### The rounds of a DECODE -/

section Transfer

variable {s : State} {t : Transfer} (h : Inv s) (ht : s.transfer = some t)
include h ht

/-- The invariant bounds the DECODE in progress. -/
theorem transferOk_of_inv : TransferOk s t := by
  obtain ⟨-, -, -, hall⟩ := h
  exact hall t ht

/-- A DECODE in progress may store bytes inside the image and move its locals within their bounds. -/
theorem inv_store {a : Nat} {bs : List Byte} {u : Transfer} (hlen : a + bs.length ≤ len s) (hcount : u.count ≤ npix s)
    (hpos : u.pos ≤ s.file.length) : Inv { s with buf := writeBytes s.buf a bs, transfer := some u } := by
  obtain ⟨hv, hi, -, -⟩ := transferOk_of_inv h ht
  obtain ⟨hc, hm, -, -⟩ := h
  have hi' := imageOk_writeBytes hi hlen
  refine ⟨hc, wf_writeBytes hm a bs, fun _ => hi', ?_⟩
  rintro _ ⟨⟩
  exact ⟨hv, hi', hcount, hpos⟩

/-- It may move its locals alone. -/
theorem inv_moveTransfer {u : Transfer} (hcount : u.count ≤ npix s) (hpos : u.pos ≤ s.file.length) :
    Inv { s with transfer := some u } :=
  inv_store (a := 0) (bs := []) h ht (Nat.zero_le _) hcount hpos

theorem inv_rawPayload : Inv (rawPayload t s) := by
  obtain ⟨-, -, hcount, -⟩ := transferOk_of_inv h ht
  rcases rawPayload_cases t s with ⟨-, he⟩ | ⟨bs, hr, he⟩ <;> rw [he]
  · exact inv_raise_image h.1 _
  · exact inv_store h ht (by rw [length_of_inRead hr, Nat.zero_add]) hcount (inRead_eq_some.1 hr).1

theorem inv_rlePayload : Inv (rlePayload t s) := by
  obtain ⟨-, -, -, hpos⟩ := transferOk_of_inv h ht
  exact inv_moveTransfer h ht (Nat.zero_le _) hpos

theorem inv_litChunk (n : Nat) : Inv (litChunk n t s) := by
  rcases litChunk_cases n t s with ⟨-, he⟩ | ⟨-, -, he⟩ | ⟨hn, bs, hr, he⟩ <;> rw [he]
  · exact inv_raise_image h.1 _
  · exact inv_raise_image h.1 _
  · exact inv_store h ht (by rw [length_of_inRead hr]; exact pixels_le_len hn) hn (inRead_eq_some.1 hr).1

theorem inv_repChunk (n : Nat) : Inv (repChunk n t s) := by
  rcases repChunk_cases n t s with ⟨-, he⟩ | ⟨-, -, he⟩ | ⟨hn, p, hr, he⟩ <;> rw [he]
  · exact inv_raise_image h.1 _
  · exact inv_raise_image h.1 _
  · refine inv_store h ht ?_ hn (inRead_eq_some.1 hr).1
    rw [length_replicate_flatten, length_of_inRead hr]
    exact pixels_le_len hn

/-- The slot that becomes valid holds the image whose bounds the DECODE kept (R148, R149). -/
theorem inv_finishDecode : Inv (finishDecode t s) := by
  obtain ⟨-, hi, -, -⟩ := transferOk_of_inv h ht
  obtain ⟨hc, hm, -, -⟩ := h
  obtain ⟨hw, hh, hf, hl, hb⟩ := hi
  refine (inv_iff_of_atRest rfl).2 ⟨hc, ?_, fun _ => ⟨hw, hh, hf, hl, ?_⟩⟩ <;> rw [finishDecode_buf] <;> split
  · exact wf_flipRows hm
  · exact hm
  · exact lt_len_of_mem_flipRows hb
  · exact hb

/-- Every round of a DECODE keeps the invariant. -/
theorem transferRound_keeps_inv {s' : State} (hr : transferRound t s = .next s') : Inv s' := by
  obtain ⟨-, -, hcount, hpos⟩ := transferOk_of_inv h ht
  rcases transferRound_cases t s with ⟨-, he | he⟩ | ⟨-, -, hlt, n, -, -, he | he⟩ | ⟨e, -, he⟩ | ⟨-, he⟩ <;>
    cases hr.symm.trans he
  · exact inv_rawPayload (inv_moveTransfer h ht hcount hpos) rfl
  · exact inv_rlePayload (inv_moveTransfer h ht hcount hpos) rfl
  · exact inv_litChunk (inv_moveTransfer (u := { t with pos := t.pos + 1 }) h ht hcount hlt) rfl n
  · exact inv_repChunk (inv_moveTransfer (u := { t with pos := t.pos + 1 }) h ht hcount hlt) rfl n
  · exact inv_raise_image h.1 e
  · exact inv_finishDecode h ht

end Transfer

/-! ### The commands -/

/-- A header that passes its tests begins a DECODE within its bounds (R137). -/
theorem inv_beginTransfer {s : State} {hd : Header} (hc : s.cfg.Ok) (hs : headerStatus s.cfg hd = .ok)
    (hl : hdrLen ≤ s.file.length) : Inv (beginTransfer hd s) := by
  have hi : ImageOk (beginTransfer hd s) := by
    obtain ⟨hw, hh, hf, hcap⟩ := headerStatus_eq_ok.1 hs
    refine ⟨?_, ?_, hf, ?_, nofun⟩
    all_goals simpa [len, widthN, heightN, bpp, BitVec.toInt_signExtend_of_le]
  refine ⟨hc, wf_nil, fun _ => hi, ?_⟩
  rintro _ ⟨⟩
  exact ⟨rfl, hi, Nat.zero_le _, hl⟩

theorem inv_openDecode {s : State} (hc : s.cfg.Ok) : Inv (openDecode s) := by
  rcases openDecode_cases s with ⟨e, -, he⟩ | ⟨-, hl, hs, he⟩ <;> rw [he]
  · exact inv_raise_image hc e
  · exact inv_beginTransfer hc hs hl

section Commands

variable {s t : State} (h : Inv s)
include h

/-- NEW puts an image into the slot that fits, or leaves the slot as it was (R81). -/
theorem execNew_keeps_inv (hr : AtRest s) {w h' f : Word} (hx : execNew w h' f s = .next t) : Inv t := by
  rcases execNew_cases w h' f s with ⟨hs, he⟩ | ⟨-, he⟩ <;> cases hx.symm.trans he
  · obtain ⟨hw, hh, hf, hcap⟩ := newStatus_eq_ok.1 hs
    have hfmt : (f.setWidth 8).toNat = f.toNat := by
      rw [BitVec.toNat_setWidth]; omega
    refine (inv_iff_of_atRest ?_).2 ⟨h.1, wf_nil, fun _ => ⟨hw, hh, ?_, ?_, nofun⟩⟩
    · exact hr
    · simpa only [bpp, hfmt] using hf
    · simpa only [len, widthN, heightN, bpp, hfmt] using hcap
  · exact h

theorem execGet_keeps_inv {x y : Word} (hx : execGet x y s = .next t) : Inv t := by
  rcases execGet_cases x y s with ⟨-, he⟩ | ⟨-, he⟩ <;> cases hx.symm.trans he <;> exact h

/-- SET writes inside the image or not at all (R92). -/
theorem execSet_keeps_inv {x y c : Word} (hx : execSet x y c s = .next t) : Inv t := by
  rcases execSet_cases x y c s with ⟨hv, hb, he⟩ | ⟨-, -, he⟩ | ⟨-, he⟩ <;> cases hx.symm.trans he
  · obtain ⟨hm, hin⟩ := buf_of_inv h hv
    refine inv_setBuf h hv (wf_pack hm _ _ c) (lt_of_mem_writeBytes hin ?_)
    rw [length_packBytes]
    exact index_add_bpp_le_len hb
  · exact h
  · exact h

theorem execClear_keeps_inv (hx : execClear s = .next t) : Inv t := by
  rcases execClear_cases s with ⟨hv, he⟩ | ⟨-, he⟩ <;> cases hx.symm.trans he
  · obtain ⟨hm, hin⟩ := buf_of_inv h hv
    exact inv_setBuf h hv (wf_zeroFill hm _) fun c hc => hin c (mem_zeroFill.1 hc).1
  · exact h

theorem execFlip_keeps_inv (hx : execFlip s = .next t) : Inv t := by
  rcases execFlip_cases s with ⟨hv, he⟩ | ⟨-, he⟩ <;> cases hx.symm.trans he
  · obtain ⟨hm, hin⟩ := buf_of_inv h hv
    exact inv_setBuf h hv (wf_flipRows hm) (lt_len_of_mem_flipRows hin)
  · exact h

theorem execEncode_keeps_inv {rle : Bool} (hx : execEncode rle s = .next t) : Inv t := by
  rcases execEncode_cases rle s with ⟨-, he⟩ | ⟨-, he⟩ <;> cases hx.symm.trans he <;> exact h

/-- DECODE: its opening meets the invariant and its rounds keep it. -/
theorem execDecode_keeps_inv (hx : execDecode s = .next t) : Inv t := by
  obtain ⟨u, hu, hrounds, -⟩ := execDecode_answers s
  cases hx.symm.trans hu
  exact hrounds.keeps (fun _ _ _ ht hr hs => transferRound_keeps_inv hs ht hr) (inv_openDecode h.1)

/-- Every command the port can issue keeps the invariant (R71). -/
theorem exec_decodeCommand_keeps_inv (hr : AtRest s) {code : Byte} {a0 a1 a2 : Word} {i : Instr}
    (hd : decodeCommand code a0 a1 a2 = .instr i) (hx : exec i s = .next t) : Inv t := by
  rcases decodeCommand_cases code a0 a1 a2 with ⟨-, he⟩ | ⟨-, he⟩ | ⟨-, he⟩ | ⟨-, he⟩ | ⟨-, he⟩ | ⟨-, he⟩ | ⟨-, he⟩ |
    ⟨-, he⟩ <;> cases hd.symm.trans he
  · exact execNew_keeps_inv h hr hx
  · exact execGet_keeps_inv h hx
  · exact execSet_keeps_inv h hx
  · exact execClear_keeps_inv h hx
  · exact execFlip_keeps_inv h hx
  · exact execEncode_keeps_inv h hx
  · exact execDecode_keeps_inv h hx

end Commands

/-! ### The host's moves and the step -/

/-- A move of the host asks for a command of the port on the latched state, or reaches a sound state at once. -/
theorem hostMove_cases_of_inv (m : HostMove) {s : State} (h : Inv s) (hr : AtRest s) :
    (∃ s', hostMove m s = .done s' ∧ Inv s') ∨
    (∃ code a0 a1 a2 i s', decodeCommand code a0 a1 a2 = .instr i ∧ hostMove m s = .run i s' ∧ Inv s' ∧ AtRest s') := by
  cases m with
  | writeArg0 v => exact .inl ⟨_, rfl, h⟩
  | writeArg1 v => exact .inl ⟨_, rfl, h⟩
  | writeArg2 v => exact .inl ⟨_, rfl, h⟩
  | drain n => exact .inl ⟨_, rfl, h⟩
  | reset => exact .inl ⟨_, rfl, inv_hostReset h.1⟩
  | issue code file ioFail =>
    have hl := inv_latch h hr code file ioFail
    cases hd : decodeCommand code s.arg0 s.arg1 s.arg2 with
    | instr i => exact .inr ⟨_, _, _, _, i, latch code file ioFail s, hd, by simp [hostMove, decode, hd], hl, hr⟩
    | reject e =>
      refine .inl ⟨closeStreams (raise .nothing .illegalCommand (latch code file ioFail s)), ?_, ?_⟩
      · simp [hostMove, decode, hd]
      · exact inv_closeStreams (s := raise .nothing .illegalCommand (latch code file ioFail s)) hl hr

/-- The invariant of Sys2Proof/Safety.lean is inductive: every step keeps it. -/
theorem step_keeps_inv {s t : State} (h : Inv s) (hx : step s = .next t) : Inv t := by
  cases ht : s.transfer with
  | some u =>
    rw [step_of_transfer ht] at hx
    obtain ⟨s', hr, rfl⟩ := mapNext_eq_next.1 hx
    exact inv_settle (transferRound_keeps_inv h ht hr)
  | none =>
    cases hm : s.script with
    | nil =>
      cases hx.symm.trans (step_of_idle ht hm)
      exact h
    | cons m rest =>
      rw [step_of_move ht hm] at hx
      rcases hostMove_cases_of_inv m (s := { s with script := rest }) h ht with
        ⟨s', he, hs'⟩ | ⟨code, a0, a1, a2, i, s', hd, he, hs', hr'⟩ <;> rw [he] at hx
      · cases hx
        exact hs'
      · obtain ⟨s'', hi, rfl⟩ := mapNext_eq_next.1 hx
        exact inv_settle (exec_decodeCommand_keeps_inv hs' hr' hd hi)

/-! ### The obligations -/

/-- Settles O13: `VALID` is 0, no byte of `BUF` is listed and `BUF_CAP` is at the top of its range. -/
theorem resetMeetsInvariant : Obligations.ResetMeetsInvariant :=
  ⟨inv_of_invalid (by decide) wf_nil rfl rfl, rfl⟩

/-- Settles O14, by the cases of a step: a round of a DECODE, a move of the host, idleness. -/
theorem stepKeepsInvariant : Obligations.StepKeepsInvariant :=
  fun _ _ => step_keeps_inv

end Sys2Proof.Proofs
end

