-- ==== Sys2Proof/Proofs/Effects.lean ====
section
/-!
PROOFS. What a command and a step between commands can do to the state, said once as two inductive relations, and what
follows from them for each register. The layers, in order: the rounds of a DECODE; the commands; the step.
-/

namespace Sys2Proof.Proofs

open Sys2Proof Sys2Proof.Machine Sys2Proof.Safety Sys2Proof.Laws

/-! ### The rounds of a DECODE -/

/-- The states that differ from `s` in the slot, in `STATUS` and in the locals of a DECODE only. -/
inductive SlotChange (s : State) : State → Prop where
  | mk (v : Bool) (w h : Word) (f : Byte) (m : Memory) (e : Status) (u : Option Transfer) (d : Nat) :
    SlotChange s { s with
      valid := v, width := w, height := h, format := f, buf := m, status := e, transfer := u, draws := d }

theorem SlotChange.trans {s t u : State} (h : SlotChange s t) (h' : SlotChange t u) : SlotChange s u := by
  cases h
  cases h'
  exact .mk ..

/-- A round raises an error, ends the DECODE, or stores bytes and moves the locals. -/
theorem transferRound_effect {s s' : State} {t : Transfer} (hr : transferRound t s = .next s') :
    (∃ e, e ≠ .ok ∧ s' = raise .image e s) ∨ s' = finishDecode t s ∨
    ∃ m u, s' = { s with buf := m, transfer := some u } := by
  rcases transferRound_cases t s with ⟨-, he | he⟩ | ⟨-, -, -, n, -, -, he | he⟩ | ⟨e, hne, he⟩ | ⟨-, he⟩ <;>
    cases hr.symm.trans he
  · rcases rawPayload_cases t { s with transfer := some t } with ⟨-, h⟩ | ⟨bs, -, h⟩ <;> rw [h]
    · exact .inl ⟨.ioError, nofun, rfl⟩
    · exact .inr (.inr ⟨_, _, rfl⟩)
  · exact .inr (.inr ⟨_, _, rfl⟩)
  · rcases litChunk_cases n { t with pos := t.pos + 1 } { s with transfer := some { t with pos := t.pos + 1 } } with
      ⟨-, h⟩ | ⟨-, -, h⟩ | ⟨-, bs, -, h⟩ <;> rw [h]
    · exact .inl ⟨.overrunError, nofun, rfl⟩
    · exact .inl ⟨.ioError, nofun, rfl⟩
    · exact .inr (.inr ⟨_, _, rfl⟩)
  · rcases repChunk_cases n { t with pos := t.pos + 1 } { s with transfer := some { t with pos := t.pos + 1 } } with
      ⟨-, h⟩ | ⟨-, -, h⟩ | ⟨-, p, -, h⟩ <;> rw [h]
    · exact .inl ⟨.overrunError, nofun, rfl⟩
    · exact .inl ⟨.ioError, nofun, rfl⟩
    · exact .inr (.inr ⟨_, _, rfl⟩)
  · exact .inl ⟨e, hne, rfl⟩
  · exact .inr (.inl rfl)

theorem transferRound_slotChange {s s' : State} {t : Transfer} (hr : transferRound t s = .next s') :
    SlotChange s s' := by
  rcases transferRound_effect hr with ⟨e, -, rfl⟩ | rfl | ⟨m, u, rfl⟩ <;> exact .mk ..

theorem openDecode_slotChange (s : State) : SlotChange s (openDecode s) := by
  rcases openDecode_cases s with ⟨e, -, h⟩ | ⟨-, -, -, h⟩ <;> rw [h] <;> exact .mk ..

/-- R149, R150: once a DECODE is over, `STATUS` is `OK` exactly if the slot is valid. -/
def CommitsWithOk (s : State) : Prop := s.transfer = none → (s.status = .ok ↔ s.valid = true)

theorem commitsWithOk_raise_image {e : Status} (he : e ≠ .ok) (s : State) : CommitsWithOk (raise .image e s) :=
  fun _ => by simp [he]

theorem transferRound_commitsWithOk {s s' : State} {t : Transfer} (hr : transferRound t s = .next s') :
    CommitsWithOk s' := by
  rcases transferRound_effect hr with ⟨e, he, rfl⟩ | rfl | ⟨m, u, rfl⟩
  · exact commitsWithOk_raise_image he s
  · exact fun _ => by simp
  · exact nofun

theorem openDecode_commitsWithOk (s : State) : CommitsWithOk (openDecode s) := by
  rcases openDecode_cases s with ⟨e, he, h⟩ | ⟨-, -, -, h⟩ <;> rw [h]
  · exact commitsWithOk_raise_image he s
  · exact nofun

/-! ### The commands -/

/-- What a command of the port can do: `CommandEffect s i t` says that `i` issued in `s` can answer `t`. -/
inductive CommandEffect (s : State) : Instr → State → Prop where
  /-- An error of NEW, SET, CLEAR, FLIP or ENCODE (R166); those of GET and DECODE are cases of `get` and `decode`. -/
  | failed (i : Instr) (e : Status) : CommandEffect s i { s with status := e }
  /-- R81. -/
  | new (w h f : Word) : CommandEffect s (.new w h f)
      { s with valid := true, width := w, height := h, format := f.setWidth 8, buf := [], status := .ok }
  /-- R91, with R166's free `RESULT` after an error. -/
  | get (x y v : Word) (e : Status) (d : Nat) : CommandEffect s (.get x y) { s with result := v, status := e, draws := d }
  /-- R92. -/
  | set (x y c : Word) (m : Memory) : CommandEffect s (.set x y c) { s with buf := m, status := .ok }
  /-- R93. -/
  | clear (m : Memory) : CommandEffect s .clear { s with buf := m, status := .ok }
  /-- R94. -/
  | flip (m : Memory) : CommandEffect s .flip { s with buf := m, status := .ok }
  /-- R106. -/
  | encode (rle : Bool) (E : List Byte) : CommandEffect s (.encode rle) { s with out := s.out ++ [E], status := .ok }
  /-- R130, R149, R150. -/
  | decode (v : Bool) (w h : Word) (f : Byte) (m : Memory) (e : Status) (d : Nat) (hv : e = .ok ↔ v = true) :
    CommandEffect s .decode { s with
      valid := v, width := w, height := h, format := f, buf := m, status := e, transfer := none, draws := d }

section Commands

variable {s t : State}

theorem execNew_effect {w h f : Word} (hx : execNew w h f s = .next t) : CommandEffect s (.new w h f) t := by
  rcases execNew_cases w h f s with ⟨-, he⟩ | ⟨-, he⟩ <;> cases hx.symm.trans he
  · exact .new ..
  · exact .failed ..

theorem execGet_effect {x y : Word} (hx : execGet x y s = .next t) : CommandEffect s (.get x y) t := by
  rcases execGet_cases x y s with ⟨-, he⟩ | ⟨-, he⟩ <;> cases hx.symm.trans he <;> exact .get ..

theorem execSet_effect {x y c : Word} (hx : execSet x y c s = .next t) : CommandEffect s (.set x y c) t := by
  rcases execSet_cases x y c s with ⟨-, -, he⟩ | ⟨-, -, he⟩ | ⟨-, he⟩ <;> cases hx.symm.trans he
  · exact .set ..
  · exact .set ..
  · exact .failed ..

theorem execClear_effect (hx : execClear s = .next t) : CommandEffect s .clear t := by
  rcases execClear_cases s with ⟨-, he⟩ | ⟨-, he⟩ <;> cases hx.symm.trans he
  · exact .clear ..
  · exact .failed ..

theorem execFlip_effect (hx : execFlip s = .next t) : CommandEffect s .flip t := by
  rcases execFlip_cases s with ⟨-, he⟩ | ⟨-, he⟩ <;> cases hx.symm.trans he
  · exact .flip ..
  · exact .failed ..

theorem execEncode_effect {rle : Bool} (hx : execEncode rle s = .next t) : CommandEffect s (.encode rle) t := by
  rcases execEncode_cases rle s with ⟨-, he⟩ | ⟨-, he⟩ <;> cases hx.symm.trans he
  · exact .encode ..
  · exact .failed ..

/-- DECODE: its opening and its rounds touch the slot only, and it ends with none in progress. -/
theorem execDecode_effect (hx : execDecode s = .next t) : CommandEffect s .decode t := by
  obtain ⟨u, hu, hrounds, hrest⟩ := execDecode_answers s
  cases hx.symm.trans hu
  have hslot : SlotChange s t :=
    hrounds.keeps (fun _ _ _ _ hr h => h.trans (transferRound_slotChange hr)) (openDecode_slotChange s)
  have hcommit : CommitsWithOk t :=
    hrounds.keeps (fun _ _ _ _ hr _ => transferRound_commitsWithOk hr) (openDecode_commitsWithOk s)
  obtain ⟨v, w, h, f, m, e, u, d⟩ := hslot
  cases hrest
  exact .decode v w h f m e d (hcommit rfl)

/-- Every command of the port, by its instruction (R71). -/
theorem exec_effect {i : Instr} (hi : placeOf (encode i) = .command) (hx : exec i s = .next t) :
    CommandEffect s i t := by
  cases i with
  | new w h f => exact execNew_effect hx
  | get x y => exact execGet_effect hx
  | set x y c => exact execSet_effect hx
  | clear => exact execClear_effect hx
  | flip => exact execFlip_effect hx
  | encode rle => exact execEncode_effect hx
  | decode => exact execDecode_effect hx
  | _ => exact nomatch hi

/-- The command port decodes a code to a command with that very code. -/
theorem encode_of_decodeCommand {code : Byte} {a0 a1 a2 : Word} {i : Instr}
    (hd : decodeCommand code a0 a1 a2 = .instr i) : placeOf (encode i) = .command ∧ codeByte (encode i) = code := by
  rcases decodeCommand_cases code a0 a1 a2 with ⟨hc, he⟩ | ⟨hc, he⟩ | ⟨hc, he⟩ | ⟨hc, he⟩ | ⟨hc, he⟩ | ⟨hc, he⟩ |
    ⟨hc, he⟩ | ⟨-, he⟩ <;> cases hd.symm.trans he <;> exact ⟨rfl, hc.symm⟩

variable {i : Instr}

theorem CommandEffect.cfg_eq (h : CommandEffect s i t) : t.cfg = s.cfg := by
  cases h <;> rfl

theorem CommandEffect.keeps_rest (h : CommandEffect s i t) (hr : AtRest s) : AtRest t := by
  cases h with
  | decode => rfl
  | _ => exact hr

/-- R15. -/
theorem CommandEffect.valid_cases (h : CommandEffect s i t) :
    t.valid = s.valid ∨ (codeByte (Sys2Proof.encode i) = 0x01#8 ∧ t.valid = true ∧ t.status = .ok) ∨
    (codeByte (Sys2Proof.encode i) = 0x07#8 ∧ (t.status = .ok ↔ t.valid = true)) := by
  cases h with
  | new => exact .inr (.inl ⟨rfl, rfl, rfl⟩)
  | decode v w h f m e d hv => exact .inr (.inr ⟨rfl, hv⟩)
  | _ => exact .inl rfl

/-- R22. -/
theorem CommandEffect.result_cases (h : CommandEffect s i t) :
    t.result = s.result ∨ codeByte (Sys2Proof.encode i) = 0x02#8 := by
  cases h with
  | get => exact .inr rfl
  | _ => exact .inl rfl

/-- R28. -/
theorem CommandEffect.out_cases (h : CommandEffect s i t) :
    t.out = s.out ∨ (codeByte (Sys2Proof.encode i) = 0x06#8 ∧ t.status = .ok ∧ ∃ E, t.out = s.out ++ [E]) := by
  cases h with
  | encode rle E => exact .inr ⟨rfl, rfl, E, rfl⟩
  | _ => exact .inl rfl

end Commands

/-! ### The step between commands -/

/-- What a step between commands can do: `RestStep s t` says that a step of `s` can answer `t`. -/
inductive RestStep (s : State) : State → Prop where
  /-- R183. -/
  | idle (hm : s.script = []) : RestStep s s
  /-- R23: a write to an operand register. -/
  | operand {m : HostMove} {rest : List HostMove} (hm : s.script = m :: rest) (a0 a1 a2 : Word) :
    RestStep s { s with script := rest, arg0 := a0, arg1 := a1, arg2 := a2 }
  /-- R28. -/
  | drain {n : Nat} {rest : List HostMove} (hm : s.script = .drain n :: rest) :
    RestStep s { s with script := rest, out := s.out.drop n }
  /-- R181. -/
  | reset {rest : List HostMove} (hm : s.script = .reset :: rest) : RestStep s (hostReset { s with script := rest })
  /-- R169: an unassigned code. -/
  | rejected {code : Byte} {file : List Byte} {ioFail : Bool} {rest : List HostMove}
    (hm : s.script = .issue code file ioFail :: rest) :
    RestStep s { s with script := rest, cmd := code, status := .illegalCommand, file := [], ioFail := false }
  /-- R19: a command, run whole. -/
  | command {code : Byte} {file : List Byte} {ioFail : Bool} {rest : List HostMove} {i : Instr} {t : State}
    (hm : s.script = .issue code file ioFail :: rest) (hi : codeByte (encode i) = code)
    (he : CommandEffect (latch code file ioFail { s with script := rest }) i t) : RestStep s (settle t)

section Step

variable {s t : State}

/-- R13, R19: with an issue of an instruction's code pending, a step runs that instruction. -/
theorem step_of_issue {code : Byte} {file : List Byte} {ioFail : Bool} {rest : List HostMove} {i : Instr}
    (hr : AtRest s) (hm : s.script = .issue code file ioFail :: rest)
    (hd : decodeCommand code s.arg0 s.arg1 s.arg2 = .instr i) :
    step s = mapNext settle (exec i (latch code file ioFail { s with script := rest })) := by
  simp only [step_of_move hr hm, hostMove, decode, hd]

/-- Every step between commands, by the host's next move. -/
theorem step_effect (hr : AtRest s) (hx : step s = .next t) : RestStep s t := by
  cases hm : s.script with
  | nil =>
    cases hx.symm.trans (step_of_idle hr hm)
    exact .idle hm
  | cons m rest =>
    cases m with
    | issue code file ioFail =>
      cases hd : decodeCommand code s.arg0 s.arg1 s.arg2 with
      | instr i =>
        obtain ⟨u, hu, rfl⟩ := mapNext_eq_next.1 ((step_of_issue hr hm hd).symm.trans hx)
        obtain ⟨hplace, hcode⟩ := encode_of_decodeCommand hd
        exact .command hm hcode (exec_effect hplace hu)
      | reject e =>
        simp only [step_of_move hr hm, hostMove, decode, hd] at hx
        cases hx
        exact .rejected hm
    | drain n => cases hx.symm.trans (step_of_move hr hm); exact .drain hm
    | reset => cases hx.symm.trans (step_of_move hr hm); exact .reset hm
    | writeArg0 v => cases hx.symm.trans (step_of_move hr hm); exact .operand hm ..
    | writeArg1 v => cases hx.symm.trans (step_of_move hr hm); exact .operand hm ..
    | writeArg2 v => cases hx.symm.trans (step_of_move hr hm); exact .operand hm ..

theorem RestStep.cfg_eq (h : RestStep s t) : t.cfg = s.cfg := by
  cases h with
  | command _ _ he => rw [settle_cfg, he.cfg_eq]; rfl
  | _ => rfl

theorem RestStep.keeps_rest (h : RestStep s t) (hr : AtRest s) : AtRest t := by
  cases h with
  | command _ _ he => exact (settle_transfer _).trans (he.keeps_rest hr)
  | reset => rfl
  | _ => exact hr

/-- R15. -/
theorem RestStep.valid_cases (h : RestStep s t) :
    t.valid = s.valid ∨ (t.valid = false ∧ ∃ rest, s.script = .reset :: rest) ∨
    ∃ code file ioFail rest, s.script = .issue code file ioFail :: rest ∧
      ((code = 0x01#8 ∧ t.valid = true ∧ t.status = .ok) ∨ (code = 0x07#8 ∧ (t.status = .ok ↔ t.valid = true))) := by
  cases h with
  | reset hm => exact .inr (.inl ⟨rfl, _, hm⟩)
  | command hm hi he =>
    rw [settle_valid, settle_status]
    subst hi
    exact he.valid_cases.imp_right fun h => .inr ⟨_, _, _, _, hm, h⟩
  | _ => exact .inl rfl

/-- R22, R181. -/
theorem RestStep.result_cases (h : RestStep s t) :
    t.result = s.result ∨ (∃ file ioFail rest, s.script = .issue 0x02#8 file ioFail :: rest) ∨
    ∃ rest, s.script = .reset :: rest := by
  cases h with
  | reset hm => exact .inr (.inr ⟨_, hm⟩)
  | command hm hi he =>
    rw [settle_result]
    exact he.result_cases.imp_right fun hg => .inl ⟨_, _, _, hg ▸ hi ▸ hm⟩
  | _ => exact .inl rfl

/-- R28, R32. -/
theorem RestStep.out_cases (h : RestStep s t) :
    t.out = s.out ∨
    (t.status = .ok ∧ ∃ file ioFail rest E, s.script = .issue 0x06#8 file ioFail :: rest ∧ t.out = s.out ++ [E]) ∨
    (∃ n rest, s.script = .drain n :: rest ∧ t.out = s.out.drop n) ∨
    (∃ rest, s.script = .reset :: rest ∧ t.out = []) := by
  cases h with
  | drain hm => exact .inr (.inr (.inl ⟨_, _, hm, rfl⟩))
  | reset hm => exact .inr (.inr (.inr ⟨_, hm, rfl⟩))
  | command hm hi he =>
    rw [settle_out, settle_status]
    exact he.out_cases.imp_right fun ⟨hg, hs, E, ho⟩ => .inl ⟨hs, _, _, _, E, hg ▸ hi ▸ hm, ho⟩
  | _ => exact .inl rfl

/-- R34: a round of a DECODE keeps the parameter as every other step does. -/
theorem step_cfg_eq (hx : step s = .next t) : t.cfg = s.cfg := by
  cases ht : s.transfer with
  | none => exact (step_effect ht hx).cfg_eq
  | some u =>
    obtain ⟨s', hr, rfl⟩ := mapNext_eq_next.1 ((step_of_transfer ht).symm.trans hx)
    rw [settle_cfg]
    cases transferRound_slotChange hr
    rfl

end Step

end Sys2Proof.Proofs
end

