-- ==== Sys2Proof/Proofs/Registers.lean ====
section
/-!
PROOFS. Which step changes which register (10_state.md): the obligations about the host's moves and about `VALID`,
`RESULT`, `OUT`, the geometry and the parameter, each from the cases of Sys2Proof/Proofs/Effects.lean.
-/

namespace Sys2Proof.Proofs

open Sys2Proof Sys2Proof.Machine Sys2Proof.Safety Sys2Proof.Laws

/-! ### What a step runs -/

/-- Settles O6. -/
theorem stepRunsIssuedCommand : Obligations.StepRunsIssuedCommand :=
  fun _ _ _ _ _ _ hr hm hd => step_of_issue hr hm hd

/-- Settles O8, one move at a time. -/
theorem hostMovesTouchTheirRegister : Obligations.HostMovesTouchTheirRegister :=
  fun _ _ _ _ hr =>
    ⟨fun hm => step_of_idle hr hm, fun hm => step_of_move hr hm, fun hm => step_of_move hr hm,
      fun hm => step_of_move hr hm, fun hm => step_of_move hr hm⟩

/-- Settles O9: the step is `hostReset`. -/
theorem hostResetClears : Obligations.HostResetClears :=
  fun s rest hr hm => ⟨hostReset { s with script := rest }, step_of_move hr hm, rfl, rfl, rfl, rfl, rfl, rfl⟩

/-- Settles O10. -/
theorem resetValues : Obligations.ResetValues := ⟨rfl, rfl, rfl⟩

/-! ### What a step keeps -/

/-- Settles O15, by the host's next move. -/
theorem stepKeepsRest : Obligations.StepKeepsRest :=
  fun _ _ hr hx => (step_effect hr hx).keeps_rest hr

/-- Settles O17. -/
theorem capacityNeverChanges : Obligations.CapacityNeverChanges :=
  fun _ _ => step_cfg_eq

/-- Settles O18: of the moves that can change `VALID`, NEW sets it, a reset clears it, and DECODE sets it exactly if it
ends with `OK`. -/
theorem validChangesOnlyBy : Obligations.ValidChangesOnlyBy := by
  intro s t hr hx
  rcases (step_effect hr hx).valid_cases with hsame | ⟨hf, hreset⟩ |
    ⟨code, file, ioFail, rest, hm, ⟨hc, hv, hok⟩ | ⟨rfl, hiff⟩⟩
  · simp +contextual [hsame]
  · simp [hf, hreset]
  · exact ⟨fun _ _ => ⟨hok, code, file, ioFail, rest, hm, .inl hc⟩, by simp [hv]⟩
  · exact ⟨fun _ hv => ⟨hiff.2 hv, _, file, ioFail, rest, hm, .inr rfl⟩,
      fun _ hv => .inr ⟨by simp [hiff, hv], file, ioFail, rest, hm⟩⟩

/-- Settles O19. -/
theorem resultChangesOnlyByGet : Obligations.ResultChangesOnlyByGet :=
  fun _ _ hr hx hne => (step_effect hr hx).result_cases.resolve_left hne

/-- Settles O20. -/
theorem outChangesOnlyByEncodeOrHost : Obligations.OutChangesOnlyByEncodeOrHost :=
  fun _ _ hr hx hne => (step_effect hr hx).out_cases.resolve_left hne

/-- Settles O21, by the effects of a command: only NEW and DECODE write the geometry, and of the others SET, CLEAR and
FLIP write `BUF`. -/
theorem geometryFixedByOthers : Obligations.GeometryFixedByOthers := by
  intro s t i hi hx
  have hplace : placeOf (encode i) = .command := by
    rcases hi with ⟨_, _, rfl⟩ | ⟨_, _, _, rfl⟩ | rfl | rfl | ⟨_, rfl⟩ <;> rfl
  cases exec_effect hplace hx with
  | new => simp at hi
  | decode => simp at hi
  | set => exact ⟨rfl, rfl, rfl, rfl, by simp⟩
  | clear => exact ⟨rfl, rfl, rfl, rfl, by simp⟩
  | flip => exact ⟨rfl, rfl, rfl, rfl, by simp⟩
  | _ => exact ⟨rfl, rfl, rfl, rfl, fun _ => rfl⟩

end Sys2Proof.Proofs
end

