-- ==== Sys2Proof/Proofs/Chunks.lean ====
section
/-!
PROOFS. A chunk that fits image and stream: what LIT and REP store, and how far the step that takes the chunk moves the
cursor and the count.
-/

namespace Sys2Proof.Proofs

open Sys2Proof Sys2Proof.Machine Sys2Proof.Safety Sys2Proof.Laws

/-! ### The chunk instructions -/

/-- A run of one pixel, byte by byte. -/
theorem getD_flatten_replicate {n : Nat} {p : List Byte} {k : Nat} (hk : k < n * p.length) (d : Byte) :
    (List.replicate n p).flatten.getD k d = p.getD (k % p.length) d := by
  induction n generalizing k with
  | zero => omega
  | succ n ih =>
    rw [List.replicate_succ, List.flatten_cons]
    by_cases hkp : k < p.length
    · rw [List.getD_append _ _ _ _ hkp, Nat.mod_eq_of_lt hkp]
    · have hle : p.length ≤ k := by omega
      rw [Nat.succ_mul] at hk
      rw [List.getD_append_right _ _ _ _ hle, ih (by omega), ← Nat.mod_eq_sub_mod hle]

section Fits

variable {s : State} {t : Transfer} {n : Nat} (ht : s.transfer = some t) (hn : t.count + n ≤ npix s)
include ht hn

/-- R143: a LIT that fits. -/
theorem exec_lit_of_fits (hp : t.pos + n * bpp s ≤ s.file.length) :
    ∃ bs, inRead s.file t.pos (n * bpp s) = some bs ∧ exec (.lit n) s = .next { s with
      buf := writeBytes s.buf (t.count * bpp s) bs
      transfer := some { t with pos := t.pos + n * bpp s, count := t.count + n } } := by
  rcases litChunk_cases n t s with ⟨hover, -⟩ | ⟨-, hshort, -⟩ | ⟨-, bs, hr, he⟩
  · omega
  · omega
  · exact ⟨bs, hr, (execLit_some ht n).trans (congrArg _ he)⟩

/-- R144: a REP that fits. -/
theorem exec_rep_of_fits (hp : t.pos + bpp s ≤ s.file.length) :
    ∃ p, inRead s.file t.pos (bpp s) = some p ∧ exec (.rep n) s = .next { s with
      buf := writeBytes s.buf (t.count * bpp s) (List.replicate n p).flatten
      transfer := some { t with pos := t.pos + bpp s, count := t.count + n } } := by
  rcases repChunk_cases n t s with ⟨hover, -⟩ | ⟨-, hshort, -⟩ | ⟨-, p, hr, he⟩
  · omega
  · omega
  · exact ⟨p, hr, (execRep_some ht n).trans (congrArg _ he)⟩

end Fits

/-! ### The step that takes a chunk -/

/-- R65, R141: the header byte's upper half is REP, its lower seven bits are the count less one. -/
theorem decodeChunk_eq (h : Byte) :
    decodeChunk h = if h.toNat < 128 then .lit (h.toNat % 128 + 1) else .rep (h.toNat % 128 + 1) := by
  have hlow : (h.extractLsb' 0 7).toNat = h.toNat % 128 := by simp
  have htop : h.getLsbD 7 = !decide (h.toNat < 128) := by
    rw [BitVec.getLsbD, Nat.testBit_eq_decide_div_mod_eq]
    have := h.isLt
    by_cases hlt : h.toNat < 128 <;> simp [hlt] <;> omega
  simp only [decodeChunk, hlow, htop]
  by_cases hlt : h.toNat < 128 <;> simp [hlt]

section Step

variable {s : State} {t : Transfer} {h : Byte}

/-- R140: in the chunk loop a step runs the chunk whose header byte stands at the cursor. -/
theorem step_of_chunk (ht : s.transfer = some t) (hp : t.phase = .chunks) (hc : t.count < npix s)
    (hh : s.file[t.pos]? = some h) :
    step s = mapNext settle (exec (decodeChunk h) { s with transfer := some { t with pos := t.pos + 1 } }) := by
  have hfetch : fetchStream t s = .run (decodeChunk h) { t with pos := t.pos + 1 } := by
    obtain ⟨hlt, rfl⟩ := List.getElem?_eq_some_iff.1 hh
    have hread : inRead s.file t.pos 1 = some [s.file[t.pos]] :=
      inRead_eq_some.2 ⟨hlt, by rw [List.drop_eq_getElem_cons hlt]; rfl⟩
    simp [fetchStream, hp, hc, hread, decode]
  simp only [step, ht, hfetch]

/-- R68: a chunk that fits takes its size from the stream and its pixels from the count still missing. -/
theorem exec_decodeChunk_of_fits (hn : t.count + (h.toNat % 128 + 1) ≤ npix s)
    (hp : t.pos + chunkSize (bpp s) h ≤ s.file.length) :
    ∃ m, exec (decodeChunk h) { s with transfer := some { t with pos := t.pos + 1 } } = .next { s with
      buf := m
      transfer := some { t with pos := t.pos + chunkSize (bpp s) h, count := t.count + (h.toNat % 128 + 1) } } := by
  rw [decodeChunk_eq]
  by_cases hlit : h.toNat < 128
  · have hsize : t.pos + chunkSize (bpp s) h = t.pos + 1 + (h.toNat % 128 + 1) * bpp s := by
      rw [chunkSize, if_pos hlit, Nat.mod_eq_of_lt hlit, Nat.add_assoc]
    rw [hsize] at hp ⊢
    rw [if_pos hlit]
    obtain ⟨_, -, he⟩ := exec_lit_of_fits (s := { s with transfer := some { t with pos := t.pos + 1 } }) rfl hn hp
    exact ⟨_, he⟩
  · have hsize : t.pos + chunkSize (bpp s) h = t.pos + 1 + bpp s := by
      rw [chunkSize, if_neg hlit, Nat.add_assoc]
    rw [hsize] at hp ⊢
    rw [if_neg hlit]
    obtain ⟨_, -, he⟩ := exec_rep_of_fits (s := { s with transfer := some { t with pos := t.pos + 1 } }) rfl hn hp
    exact ⟨_, he⟩

end Step

/-! ### The obligations -/

/-- Settles O45: the bytes of the stream are written from the pixel at the count on. -/
theorem litStoresPixels : Obligations.LitStoresPixels := by
  intro s t n hm ht hn hp
  obtain ⟨bs, hr, he⟩ := exec_lit_of_fits ht hn hp
  refine ⟨_, he, fun a => ?_⟩
  rw [readByte_writeBytes hm, length_of_inRead hr, Nat.add_mul]
  split
  · exact getD_of_inRead hr _ (by omega) _
  · rfl

/-- Settles O46: byte `k` of the run is byte `k` mod `bpp` of the pixel. -/
theorem repRepeatsPixel : Obligations.RepRepeatsPixel := by
  intro s t n hm ht hn hp
  obtain ⟨p, hr, he⟩ := exec_rep_of_fits ht hn hp
  have hlen : p.length = bpp s := length_of_inRead hr
  refine ⟨_, he, fun a => ?_⟩
  rw [readByte_writeBytes hm, length_replicate_flatten, hlen, Nat.add_mul]
  split
  · have hk : a - t.count * bpp s < n * bpp s := by omega
    have hpos : 0 < bpp s := Nat.pos_of_mul_pos_left (Nat.zero_lt_of_lt hk)
    rw [getD_flatten_replicate (hlen ▸ hk), hlen]
    exact getD_of_inRead hr _ (Nat.mod_lt _ hpos) _
  · rfl

/-- Settles O11: the step runs the chunk, and the DECODE goes on. -/
theorem stepAdvancesByChunkSize : Obligations.StepAdvancesByChunkSize := by
  intro s t h ht hp hc hh hn hfile
  obtain ⟨m, he⟩ := exec_decodeChunk_of_fits hn hfile
  exact ⟨_, _, (step_of_chunk ht hp hc hh).trans (congrArg (mapNext settle) he), settle_transfer _, rfl, rfl⟩

end Sys2Proof.Proofs
end

