-- ==== Sys2Proof/Proofs/Pixels.lean ====
section
/-!
PROOFS. The pixel commands repeated and combined: NEW, GET, SET and CLEAR issued twice, GET after SET. The layers, in
order: what each command answers once its tests pass; the converter; the bytes of two pixels; the obligations.
-/

namespace Sys2Proof.Proofs

open Sys2Proof Sys2Proof.Machine Sys2Proof.Safety Sys2Proof.Laws

/-! ### The commands whose tests pass -/

section Passes

variable {s : State} {w h f x y : Word}

/-- GET's tests all pass exactly on a pixel of an image (R91). -/
theorem getStatus_eq_ok : getStatus s x y = .ok ↔ s.valid = true ∧ InBounds s x y := by
  unfold getStatus
  split
  case isTrue hv => exact ⟨nofun, fun h => absurd h.1 hv⟩
  case isFalse hv =>
    split
    case isTrue hb => exact ⟨nofun, fun h => absurd h.2 hb⟩
    case isFalse hb => exact ⟨fun _ => ⟨not_not.1 hv, not_not.1 hb⟩, fun _ => rfl⟩

theorem execNew_of_ok (hs : newStatus s.cfg w h f = .ok) : execNew w h f s =
    .next { s with valid := true, width := w, height := h, format := f.setWidth 8, buf := [], status := .ok } :=
  ((execNew_cases w h f s).resolve_right fun hne => hne.1 hs).2

theorem execGet_of_ok {r : Word} (hs : getStatus s x y = .ok) (hr : unpack s.buf (bpp s) (index s x y) = r) :
    execGet x y s = .next { s with result := r, status := .ok } :=
  hr ▸ ((execGet_cases x y s).resolve_right fun hne => hne.1 hs).2

theorem execSet_of_inBounds (hv : s.valid = true) (hb : InBounds s x y) (c : Word) :
    execSet x y c s = .next { s with buf := pack s.buf (bpp s) (index s x y) c, status := .ok } := by
  rcases execSet_cases x y c s with ⟨-, -, he⟩ | ⟨-, hnb, -⟩ | ⟨hnv, -⟩
  · exact he
  · exact absurd hb hnb
  · simp [hv] at hnv

theorem execSet_of_outOfBounds (hv : s.valid = true) (hb : ¬ InBounds s x y) (c : Word) :
    execSet x y c s = .next { s with status := .ok } := by
  rcases execSet_cases x y c s with ⟨-, hnb, -⟩ | ⟨-, -, he⟩ | ⟨hnv, -⟩
  · exact absurd hnb hb
  · exact he
  · simp [hv] at hnv

theorem execClear_of_valid (hv : s.valid = true) :
    execClear s = .next { s with buf := zeroFill s.buf (len s), status := .ok } :=
  ((execClear_cases s).resolve_right fun hnv => by simp [hv] at hnv).2

end Passes

/-! ### The converter -/

/-- What `unpack` answers depends on the pixel's own bytes only (R88). -/
theorem unpack_congr {m m' : Memory} {n a : Nat} (h : ∀ k < n, readByte m (a + k) = readByte m' (a + k)) :
    unpack m n a = unpack m' n a := by
  refine color_ext fun k hk => ?_
  rw [channel_unpack m n a hk, channel_unpack m' n a hk]
  split
  · exact h k ‹_›
  · rfl

/-- The bits that R90 (a) and R96 force into a pixel read back. -/
def missingSlots (n : Nat) : Word := if n = 1 then 0xFFFFFF00#32 else if n = 3 then 0xFF000000#32 else 0#32

/-- They are those of the slots the format lacks. -/
theorem channel_missingSlots {n : Nat} (hn : FormatCode n) {k : Nat} (hk : k < 4) :
    channel (missingSlots n) k = if k < n then 0#8 else fill := by
  revert k
  rcases hn with rfl | rfl | rfl <;> decide

theorem channel_or (c d : Word) (k : Nat) : channel (c ||| d) k = channel c k ||| channel d k :=
  BitVec.extractLsb'_or

/-- R90 (a): a pixel read back after storing it. -/
theorem unpack_pack {m : Memory} (hm : Memory.wf m) {n : Nat} (hn : FormatCode n) (a : Nat) (c : Word) :
    unpack (pack m n a c) n a = c ||| missingSlots n := by
  refine color_ext fun k hk => ?_
  rw [channel_unpack _ n a hk, channel_or, channel_missingSlots hn hk]
  split
  · rw [readByte_pack hm, if_pos (by omega), Nat.add_sub_cancel_left, BitVec.or_zero]
  · exact (BitVec.or_allOnes (x := channel c k)).symm

/-- Storing a pixel leaves what `unpack` reads from other bytes. -/
theorem unpack_pack_of_disjoint {m : Memory} (hm : Memory.wf m) {n a a' : Nat} (c : Word)
    (hd : a + n ≤ a' ∨ a' + n ≤ a) : unpack (pack m n a c) n a' = unpack m n a' :=
  unpack_congr fun k hk => by rw [readByte_pack hm, if_neg (by omega)]

/-- Storing a pixel twice is storing it once. -/
theorem pack_pack {m : Memory} (hm : Memory.wf m) (n a : Nat) (c : Word) :
    pack (pack m n a c) n a c = pack m n a c := by
  have hp := wf_pack hm n a c
  refine memory_ext (wf_pack hp n a c) hp fun x => ?_
  rw [readByte_pack hp, readByte_pack hm]
  split <;> rfl

theorem zeroFill_zeroFill (m : Memory) (n : Nat) : zeroFill (zeroFill m n) n = zeroFill m n := by
  simp [zeroFill]

/-! ### The bytes of two pixels -/

/-- R37, R86: a pixel's offset is its linear number times the bytes of a pixel. -/
theorem index_eq_mul (s : State) (x y : Word) :
    index s x y = (y.toInt.toNat * widthN s + x.toInt.toNat) * bpp s := by
  rw [index, bpr]; ring

/-- Pixels in bounds with the same linear number are the same. -/
theorem eq_of_pixelNumber_eq {s : State} {x y x' y' : Word} (h : InBounds s x y) (h' : InBounds s x' y')
    (he : y.toInt.toNat * widthN s + x.toInt.toNat = y'.toInt.toNat * widthN s + x'.toInt.toNat) :
    (x, y) = (x', y') := by
  obtain ⟨⟨hx0, hx⟩, hy0, -⟩ := h
  obtain ⟨⟨hx0', hx'⟩, hy0', -⟩ := h'
  have hlt : x.toInt.toNat < widthN s := by unfold widthN; omega
  have hlt' : x'.toInt.toNat < widthN s := by unfold widthN; omega
  have hcol := congrArg (· % widthN s) he
  have hrow := congrArg (· / widthN s) he
  simp only [Nat.mul_add_mod_self_right, Nat.mod_eq_of_lt, hlt, hlt'] at hcol
  have hpos : 0 < widthN s := by omega
  simp only [Nat.add_comm (_ * _), Nat.add_mul_div_right _ _ hpos, Nat.div_eq_of_lt, hlt, hlt', Nat.zero_add] at hrow
  have hxx : x.toInt = x'.toInt := by omega
  have hyy : y.toInt = y'.toInt := by omega
  rw [BitVec.eq_of_toInt_eq hxx, BitVec.eq_of_toInt_eq hyy]

/-- R87 (c): two pixels in bounds share no byte. -/
theorem index_disjoint {s : State} {x y x' y' : Word} (h : InBounds s x y) (h' : InBounds s x' y')
    (hne : (x, y) ≠ (x', y')) :
    index s x y + bpp s ≤ index s x' y' ∨ index s x' y' + bpp s ≤ index s x y := by
  simp only [index_eq_mul, ← Nat.succ_mul]
  rcases Nat.lt_or_gt_of_ne fun he => hne (eq_of_pixelNumber_eq h h' he) with hlt | hlt
  · exact .inl (Nat.mul_le_mul_right _ hlt)
  · exact .inr (Nat.mul_le_mul_right _ hlt)

/-! ### The obligations -/

/-- Settles O32: the pixel read back is the converter's R90 (a), and another pixel shares no byte with it. -/
theorem setThenGet : Obligations.SetThenGet := by
  intro s x y c hm hf hv
  have hget : ∀ {x' y'}, InBounds s x' y' → getStatus s x' y' = .ok := fun hb => getStatus_eq_ok.2 ⟨hv, hb⟩
  constructor
  · intro hb
    refine ⟨_, execSet_of_inBounds hv hb c, ?_, fun x' y' hb' hne => ⟨_, execGet_of_ok (hget hb') rfl, ?_⟩⟩
    · exact execGet_of_ok (s := { s with buf := _, status := .ok }) (hget hb) (unpack_pack hm hf _ c)
    · exact execGet_of_ok (s := { s with buf := _, status := .ok }) (hget hb')
        (unpack_pack_of_disjoint hm c (index_disjoint hb hb' hne.symm))
  · intro hb
    refine ⟨_, execSet_of_outOfBounds hv hb c, fun x' y' hb' => ⟨_, execGet_of_ok (hget hb') rfl, ?_⟩⟩
    exact execGet_of_ok (s := { s with status := .ok }) (hget hb') rfl

section Repeat

variable {s t : State}

theorem execNew_idempotent {w h f : Word} (hx : execNew w h f s = .next t) (hok : t.status = .ok) :
    execNew w h f t = .next t := by
  rcases execNew_cases w h f s with ⟨hs, he⟩ | ⟨hs, he⟩ <;> cases hx.symm.trans he
  · exact execNew_of_ok hs
  · exact absurd hok hs

theorem execGet_idempotent {x y : Word} (hx : execGet x y s = .next t) (hok : t.status = .ok) :
    execGet x y t = .next t := by
  rcases execGet_cases x y s with ⟨hs, he⟩ | ⟨hs, he⟩ <;> cases hx.symm.trans he
  · exact execGet_of_ok hs rfl
  · exact absurd hok hs

/-- A SET of the color the pixel holds changes nothing. -/
theorem execSet_of_stored {x y c : Word} (hv : s.valid = true) (hb : InBounds s x y)
    (hp : pack s.buf (bpp s) (index s x y) c = s.buf) (hs : s.status = .ok) : execSet x y c s = .next s := by
  rw [execSet_of_inBounds hv hb, hp, ← hs]

theorem execSet_idempotent (hm : Memory.wf s.buf) {x y c : Word} (hx : execSet x y c s = .next t)
    (hok : t.status = .ok) : execSet x y c t = .next t := by
  rcases execSet_cases x y c s with ⟨hv, hb, he⟩ | ⟨hv, hb, he⟩ | ⟨-, he⟩ <;> cases hx.symm.trans he
  · exact execSet_of_stored hv hb (pack_pack hm _ _ c) rfl
  · exact execSet_of_outOfBounds hv hb c
  · simp at hok

/-- A CLEAR of a buffer that is 0x00 changes nothing. -/
theorem execClear_of_zero (hv : s.valid = true) (hz : zeroFill s.buf (len s) = s.buf) (hs : s.status = .ok) :
    execClear s = .next s := by
  rw [execClear_of_valid hv, hz, ← hs]

theorem execClear_idempotent (hx : execClear s = .next t) (hok : t.status = .ok) : execClear t = .next t := by
  rcases execClear_cases s with ⟨hv, he⟩ | ⟨-, he⟩ <;> cases hx.symm.trans he
  · exact execClear_of_zero hv (zeroFill_zeroFill s.buf (len s)) rfl
  · simp at hok

end Repeat

/-- Settles O34, one command at a time. -/
theorem commandsIdempotent : Obligations.CommandsIdempotent := by
  rintro s t _ hm (⟨w, h, f, rfl⟩ | ⟨x, y, rfl⟩ | ⟨x, y, c, rfl⟩ | rfl) hx hok
  · exact execNew_idempotent hx hok
  · exact execGet_idempotent hx hok
  · exact execSet_idempotent hm hx hok
  · exact execClear_idempotent hx hok

end Sys2Proof.Proofs
end

