-- ==== Sys2Proof/Proofs/Steps.lean ====
section
/-!
PROOFS. DECODE in progress, step by step: the steps of the machine come to the whole command; a stream that ends too
early stops it; the stream's instructions mean nothing outside it.
-/

namespace Sys2Proof.Proofs

open Sys2Proof Sys2Proof.Machine Sys2Proof.Safety Sys2Proof.Laws

/-! ### The whole command and its steps -/

theorem core_run_succ {s s' : State} (hs : step s = .next s') (k : Nat) :
    Host.Core.run core (k + 1) s = Host.Core.run core k s' := by
  simp [Host.Core.run, core, hs]

/-- With no DECODE in progress the loop is over. -/
theorem runTransfer_of_none {s : State} (hs : s.transfer = none) (k : Nat) : runTransfer k s = .next s := by
  cases k with
  | zero => rfl
  | succ k => simp only [runTransfer, hs]

theorem runTransfer_succ {s s' : State} {t : Transfer} (ht : s.transfer = some t) (hr : transferRound t s = .next s')
    (k : Nat) : runTransfer (k + 1) s = runTransfer k s' := by
  simp only [runTransfer, ht, hr]

/-- With rounds enough, the steps of the machine reach what the loop answers, one step a round; the last one closes the
streams. -/
theorem core_run_eq_runTransfer (k : Nat) {s : State} {t : Transfer} (ht : s.transfer = some t)
    (hk : roundsLeft s ≤ k) : ∃ j ≤ k, Host.Core.run core j s = mapNext settle (runTransfer k s) := by
  induction k generalizing s t with
  | zero =>
    obtain ⟨_, -, hlt⟩ := transferRound_answers t s ht
    omega
  | succ k ih =>
    obtain ⟨s', hr, hlt⟩ := transferRound_answers t s ht
    have hstep : step s = .next (settle s') := by rw [step_of_transfer ht, hr]; rfl
    rw [runTransfer_succ ht hr]
    cases ht' : s'.transfer with
    | none =>
      refine ⟨1, by omega, ?_⟩
      rw [core_run_succ hstep, runTransfer_of_none ht']
      rfl
    | some t' =>
      rw [settle_of_some ht'] at hstep
      obtain ⟨j, hj, he⟩ := ih ht' (by omega)
      exact ⟨j + 1, by omega, (core_run_succ hstep j).trans he⟩

/-- Settles O60, by induction over the rounds of the command's loop. -/
theorem decodeIsItsSteps : Obligations.DecodeIsItsSteps := by
  intro s hs
  obtain ⟨t, ht⟩ := Option.isSome_iff_exists.1 hs
  exact core_run_eq_runTransfer _ ht (roundsLeft_openDecode s)

/-! ### A stream that ends too early -/

section Short

variable {s : State} {t : Transfer}

/-- R146: the payload of a LIT that fits the image is not all there. -/
theorem exec_lit_of_short (ht : s.transfer = some t) {n : Nat} (hn : t.count + n ≤ npix s)
    (hl : s.file.length < t.pos + n * bpp s) : exec (.lit n) s = .next (raise .image .ioError s) := by
  rcases litChunk_cases n t s with ⟨hover, -⟩ | ⟨-, -, he⟩ | ⟨-, bs, hr, -⟩
  · omega
  · exact (execLit_some ht n).trans (congrArg _ he)
  · have := (inRead_eq_some.1 hr).1
    omega

/-- R146: the pixel of a REP that fits the image is not all there. -/
theorem exec_rep_of_short (ht : s.transfer = some t) {n : Nat} (hn : t.count + n ≤ npix s)
    (hl : s.file.length < t.pos + bpp s) : exec (.rep n) s = .next (raise .image .ioError s) := by
  rcases repChunk_cases n t s with ⟨hover, -⟩ | ⟨-, -, he⟩ | ⟨-, p, hr, -⟩
  · omega
  · exact (execRep_some ht n).trans (congrArg _ he)
  · have := (inRead_eq_some.1 hr).1
    omega

/-- R140, R146: the chunk loop finds no header byte. -/
theorem step_of_missingHeader (ht : s.transfer = some t) (hp : t.phase = .chunks) (hc : t.count < npix s)
    (hl : s.file.length ≤ t.pos) : step s = .next (closeStreams (raise .image .ioError s)) := by
  have hread : inRead s.file t.pos 1 = none := inRead_eq_none.2 (by omega)
  have hfetch : fetchStream t s = .stop (raise .image .ioError s) := by simp only [fetchStream, hp, hc, if_true, hread]
  simp only [step, ht, hfetch, settle_of_none (raise_image_transfer s _)]

end Short

/-- Settles O48: each way the stream can end too early raises `IoError`. -/
theorem shortChunkIsIoError : Obligations.ShortChunkIsIoError := by
  intro s t ht
  refine ⟨fun n i hn hi => ?_, fun hp hc hl => ⟨_, _, _, _, _, step_of_missingHeader ht hp hc hl⟩⟩
  rcases hi with ⟨rfl, hl⟩ | ⟨rfl, hl⟩
  · exact ⟨_, _, _, _, _, exec_lit_of_short ht hn hl⟩
  · exact ⟨_, _, _, _, _, exec_rep_of_short ht hn hl⟩

/-! ### No DECODE in progress -/

/-- Settles O51: the meaning of each stream instruction asks first for the DECODE in progress. -/
theorem streamInstructionsNeedDecode : Obligations.StreamInstructionsNeedDecode := by
  intro s n hr
  have ht : s.transfer = none := hr
  simp only [exec, execLit, execRep, execDtRawColor, execDtRawGray, execDtRleColor, execDtRleGray, ht, and_self]

end Sys2Proof.Proofs
end

