-- ==== Sys2Proof/Proofs/Encoding.lean ====
section
/-!
PROOFS. The encodings (30_encoding.md): the decoder gives back what the encoder wrote, and it is the opcode table. The
layers, in order: the chunk header byte; decoding after encoding; encoding after decoding; the rows of the table.
-/

namespace Sys2Proof.Proofs

open Sys2Proof Sys2Proof.Machine Sys2Proof.Safety Sys2Proof.Laws

/-! ### Decoding what was encoded -/

section Header

variable {n : Nat} (hn : ChunkCount n)
include hn

/-- R66: the header byte of a LIT. -/
theorem decodeChunk_litHeader : decodeChunk (BitVec.ofNat 8 (n - 1)) = .lit n := by
  have hval : (BitVec.ofNat 8 (n - 1)).toNat = n - 1 := by rw [BitVec.toNat_ofNat]; omega
  rw [decodeChunk_eq, hval, if_pos (by omega), show (n - 1) % 128 + 1 = n by omega]

/-- R67: the header byte of a REP. -/
theorem decodeChunk_repHeader : decodeChunk (BitVec.ofNat 8 (128 + (n - 1))) = .rep n := by
  have hval : (BitVec.ofNat 8 (128 + (n - 1))).toNat = 128 + (n - 1) := by rw [BitVec.toNat_ofNat]; omega
  rw [decodeChunk_eq, hval, if_neg (by omega), show (128 + (n - 1)) % 128 + 1 = n by omega]

end Header

/-- R72: whichever value the encoder writes for `rle`, the port reads it back. -/
theorem decode_encode_encode (rle : Bool) : decode (encode (.encode rle)) = .instr (.encode rle) := by
  cases rle <;> rfl

/-- Settles O1, instruction by instruction: only the chunk counts are packed into bits. -/
theorem decodeUndoesEncode : Obligations.DecodeUndoesEncode := by
  intro i hi
  cases i with
  | lit n => exact congrArg Decoded.instr (decodeChunk_litHeader (of_decide_eq_true hi))
  | rep n => exact congrArg Decoded.instr (decodeChunk_repHeader (of_decide_eq_true hi))
  | encode rle => exact decode_encode_encode rle
  | _ => rfl

/-- Settles O2, by running the decoder on the eight words. -/
theorem specWordsDecode : Obligations.SpecWordsDecode := by
  unfold Obligations.SpecWordsDecode
  decide

/-! ### Encoding what was decoded -/

/-- R65: the seven count bits and the type bit are the whole header byte. -/
theorem encode_decodeChunk (h : Byte) : encode (decodeChunk h) = .chunk h := by
  have hlt := h.isLt
  rw [decodeChunk_eq]
  split <;> refine congrArg Encoded.chunk (BitVec.eq_of_toNat_eq ?_) <;> rw [BitVec.toNat_ofNat] <;> omega

theorem wellFormed_decodeChunk (h : Byte) : (decodeChunk h).wellFormed = true := by
  obtain ⟨n, h1, h128, hi | hi⟩ := decodeChunk_cases h <;> rw [hi] <;> exact decide_eq_true ⟨h1, h128⟩

theorem encode_of_decodeDataType {code : Byte} {i : Instr} (hd : decodeDataType code = .instr i) :
    i.wellFormed = true ∧ encode i = .dataType code := by
  unfold decodeDataType at hd
  split at hd; · cases hd; subst code; exact ⟨rfl, rfl⟩
  split at hd; · cases hd; subst code; exact ⟨rfl, rfl⟩
  split at hd; · cases hd; subst code; exact ⟨rfl, rfl⟩
  split at hd; · cases hd; subst code; exact ⟨rfl, rfl⟩
  cases hd

theorem wellFormed_of_command {i : Instr} (hi : placeOf (encode i) = .command) : i.wellFormed = true := by
  cases i with
  | lit n => exact nomatch hi
  | rep n => exact nomatch hi
  | _ => rfl

/-- A decoded instruction has an encoding, and it is read from the same place by the same byte. -/
theorem encode_of_decode {e : Encoded} {i : Instr} (hd : decode e = .instr i) :
    i.wellFormed = true ∧ placeOf (encode i) = placeOf e ∧ codeByte (encode i) = codeByte e := by
  cases e with
  | command code a0 a1 a2 =>
    obtain ⟨hplace, hcode⟩ := encode_of_decodeCommand hd
    exact ⟨wellFormed_of_command hplace, hplace, hcode⟩
  | chunk h =>
    obtain rfl : decodeChunk h = i := Decoded.instr.inj hd
    rw [encode_decodeChunk]
    exact ⟨wellFormed_decodeChunk h, rfl, rfl⟩
  | dataType code =>
    obtain ⟨hwf, henc⟩ := encode_of_decodeDataType hd
    rw [henc]
    exact ⟨hwf, rfl, rfl⟩

/-! ### The rows of the table -/

/-- Every well-formed instruction encodes to its own row. -/
theorem encodesItsRow (i : Instr) : EncodesItsRow.Statement i := by
  cases i with
  | new w h f => exact EncodesItsRow.new w h f
  | get x y => exact EncodesItsRow.get x y
  | set x y c => exact EncodesItsRow.set x y c
  | clear => exact EncodesItsRow.clear
  | flip => exact EncodesItsRow.flip
  | encode rle => exact EncodesItsRow.encode rle
  | decode => exact EncodesItsRow.decode
  | lit n => exact EncodesItsRow.lit n
  | rep n => exact EncodesItsRow.rep n
  | dtRawColor => exact EncodesItsRow.dtRawColor
  | dtRawGray => exact EncodesItsRow.dtRawGray
  | dtRleColor => exact EncodesItsRow.dtRleColor
  | dtRleGray => exact EncodesItsRow.dtRleGray

theorem admits_iff {r : Row} {p : Place} {b : Byte} :
    r.admits p b = true ↔ r.place = p ∧ b &&& r.mask = r.pattern := by
  simp [Row.admits]

/-- Two rows that admit one byte agree on the bits that both fix. -/
theorem patterns_agree_of_admits {r q : Row} {p : Place} {b : Byte} (hr : r.admits p b = true)
    (hq : q.admits p b = true) : r.place = q.place ∧ r.pattern &&& q.mask = q.pattern &&& r.mask := by
  obtain ⟨hrp, hrb⟩ := admits_iff.1 hr
  obtain ⟨hqp, hqb⟩ := admits_iff.1 hq
  refine ⟨hrp.trans hqp.symm, ?_⟩
  rw [← hrb, ← hqb, BitVec.and_assoc, BitVec.and_assoc, BitVec.and_comm r.mask]

/-- No two rows of the table do. -/
theorem eq_of_patterns_agree : ∀ r ∈ opcodeTable, ∀ q ∈ opcodeTable,
    r.place = q.place ∧ r.pattern &&& q.mask = q.pattern &&& r.mask → r = q := by
  decide

/-- R71, R59: a row of the command port or of the data-type codes fixes the whole byte, a legal one. -/
theorem decode_of_row : ∀ r ∈ opcodeTable,
    (r.place = .command → r.mask = 0xFF#8 ∧ ∀ a0 a1 a2 err, decodeCommand r.pattern a0 a1 a2 ≠ .reject err) ∧
    (r.place = .dataType → r.mask = 0xFF#8 ∧ ∀ err, decodeDataType r.pattern ≠ .reject err) := by
  simp [opcodeTable, decodeCommand, decodeDataType]

/-- Such a row admits its pattern only. -/
theorem eq_pattern_of_fullMask {b mask pattern : Byte} (hmask : mask = 0xFF#8) (hbits : b &&& mask = pattern) :
    b = pattern := by
  subst hmask hbits
  exact BitVec.and_allOnes.symm

/-- R71, R59, R73: the decoder rejects nothing that a row admits. -/
theorem decode_ne_reject_of_admits {r : Row} (hr : r ∈ opcodeTable) {e : Encoded}
    (ha : r.admits (placeOf e) (codeByte e) = true) (err : DecodeError) : decode e ≠ .reject err := by
  obtain ⟨hcommand, hdataType⟩ := decode_of_row r hr
  obtain ⟨hplace, hbits⟩ := admits_iff.1 ha
  cases e with
  | command code a0 a1 a2 =>
    obtain ⟨hmask, hd⟩ := hcommand hplace
    obtain rfl : code = r.pattern := eq_pattern_of_fullMask hmask hbits
    exact hd a0 a1 a2 err
  | chunk h => exact nofun
  | dataType code =>
    obtain ⟨hmask, hd⟩ := hdataType hplace
    obtain rfl : code = r.pattern := eq_pattern_of_fullMask hmask hbits
    exact hd err

/-- Settles O4: no two rows agree on the bits both fix; what is decoded encodes to its own row in the same place; and
what a row admits is decoded. -/
theorem decoderFollowsOpcodeTable : Obligations.DecoderFollowsOpcodeTable := by
  intro e
  refine ⟨fun r hr q hq har haq => eq_of_patterns_agree r hr q hq (patterns_agree_of_admits har haq), ?_⟩
  cases hd : decode e with
  | instr i =>
    obtain ⟨hwf, hplace, hcode⟩ := encode_of_decode hd
    exact .inl ⟨i, rfl, hplace ▸ hcode ▸ encodesItsRow i hwf⟩
  | reject err =>
    refine .inr ⟨err, rfl, fun r hr => Bool.eq_false_iff.2 fun ha => ?_⟩
    exact decode_ne_reject_of_admits hr ha err hd

end Sys2Proof.Proofs
end

