-- ==== Sys2Proof/Proofs/Header.lean ====
section
/-!
PROOFS. The 18 bytes of a file header: the bytes ENCODE writes, that packing and unpacking undo each other, and that a
header DECODE accepts begins it. The layers, in order: 16-bit fields; the header ENCODE writes; packing and unpacking;
the header of a file.
-/

namespace Sys2Proof.Proofs

open Sys2Proof Sys2Proof.Machine Sys2Proof.Safety Sys2Proof.Laws

/-! ### 16-bit fields -/

/-- R62: the two bytes of a field put together again. -/
theorem u16le_extractLsb' (v : Half) : u16le (v.extractLsb' 0 8) (v.extractLsb' 8 8) = v :=
  (BitVec.extractLsb'_append_extractLsb'_eq_extractLsb' rfl).trans BitVec.extractLsb'_eq_self

/-- R62: a field made of two bytes taken apart again. -/
theorem le16_u16le (b0 b1 : Byte) : le16 (u16le b0 b1) = [b0, b1] := by
  rw [le16, u16le, BitVec.extractLsb'_append_eq_right, BitVec.extractLsb'_append_eq_left]

theorem le16_zero : le16 0#16 = [0#8, 0#8] := rfl

theorem toNat_toInt_of_nonneg {w : Word} (hw : 0 ≤ w.toInt) : w.toInt.toNat = w.toNat := by
  rw [BitVec.toInt_eq_toNat_cond] at hw ⊢
  split at hw <;> omega

/-- R41: the bytes of a size that is not negative. -/
theorem le16_setWidth {w : Word} (hw : 0 ≤ w.toInt) :
    le16 (w.setWidth 16) = [BitVec.ofNat 8 (w.toInt.toNat % 256), BitVec.ofNat 8 (w.toInt.toNat / 256)] := by
  have hlow : (w.setWidth 16).extractLsb' 0 8 = BitVec.ofNat 8 (w.toNat % 256) :=
    BitVec.eq_of_toNat_eq (by simp)
  have hhigh : (w.setWidth 16).extractLsb' 8 8 = BitVec.ofNat 8 (w.toNat / 256) :=
    BitVec.eq_of_toNat_eq (by simp [Nat.shiftRight_eq_div_pow]; omega)
  rw [le16, toNat_toInt_of_nonneg hw, hlow, hhigh]

/-! ### The header ENCODE writes -/

theorem format_eq_ofNat_iff {s : State} {n : Nat} (hn : n < 256) : s.format = BitVec.ofNat 8 n ↔ bpp s = n := by
  rw [bpp, ← BitVec.toNat_inj, BitVec.toNat_ofNat, Nat.mod_eq_of_lt hn]

/-- R109. -/
theorem dataTypeOf_format (s : State) (rle : Bool) :
    dataTypeOf s.format rle = if bpp s = 1 then (if rle then 11#8 else 3#8) else (if rle then 10#8 else 2#8) := by
  simp only [dataTypeOf, format_eq_ofNat_iff (n := 1) (by decide)]

/-- R110. -/
theorem descriptorOf_format (s : State) : descriptorOf s.format = if bpp s = 4 then 0x28#8 else 0x20#8 := by
  simp only [descriptorOf, format_eq_ofNat_iff (n := 4) (by decide)]
  split <;> rfl

/-- Settles O36, field by field: the sizes by R41, the data-type code by R109, the descriptor by R110. -/
theorem headerBytes : Obligations.HeaderBytes := by
  intro s rle hw _ hh _ _
  simp only [hdrPack, buildHeader, le16_zero, le16_setWidth hw.le, le16_setWidth hh.le, dataTypeOf_format,
    descriptorOf_format]
  rfl

/-! ### Packing and unpacking -/

theorem hdrUnpack_hdrPack (h : Header) : hdrUnpack (hdrPack h) = h := by
  simp [hdrUnpack, hdrPack, le16, u16le_extractLsb']

theorem hdrPack_hdrUnpack (b : List Byte) : hdrPack (hdrUnpack b) = (List.range 18).map fun k => b.getD k 0#8 := by
  simp only [hdrPack, hdrUnpack, le16_u16le]
  rfl

theorem map_getD_range_length (b : List Byte) (d : Byte) : (List.range b.length).map (fun k => b.getD k d) = b :=
  List.ext_getElem (by simp) fun i _ hi => by simp [hi]

/-- Settles O44. -/
theorem headerRoundTrip : Obligations.HeaderRoundTrip :=
  ⟨hdrUnpack_hdrPack, fun b hb => by rw [hdrPack_hdrUnpack, ← hb, map_getD_range_length]⟩

/-! ### The header of a file -/

/-- R132, R134: the header is in the first 18 bytes. -/
theorem hdrUnpack_take (file : List Byte) : hdrUnpack (file.take hdrLen) = hdrUnpack file := by
  simp [hdrUnpack, hdrLen, List.getD_eq_getElem?_getD]

/-- R135. -/
theorem toNat_headerFormat (file : List Byte) : (headerFormat (hdrUnpack file)).toNat = fileFormat file := by
  simp [headerFormat, hdrUnpack, fileFormat, Nat.shiftRight_eq_div_pow]

section Accepted

variable {s : State} (ha : fileAccepted s.cfg.bufCap s.file)
include ha

/-- R135 to R137: a header that DECODE accepts passes its tests. -/
theorem headerStatus_of_accepted : headerStatus s.cfg (hdrUnpack s.file) = .ok := by
  obtain ⟨-, hf, hw, hh, hcap⟩ := ha
  refine headerStatus_eq_ok.2 ⟨hw, hh, toNat_headerFormat s.file ▸ hf, ?_⟩
  show (fileHeight s.file).toNat * (fileWidth s.file).toNat * _ ≤ _
  rw [toNat_headerFormat]
  zify
  rwa [Int.toNat_of_nonneg hw.le, Int.toNat_of_nonneg hh.le]

/-- R130 to R137: DECODE of a file it accepts comes to its dispatch. -/
theorem openDecode_of_accepted (hio : s.ioFail = false) : openDecode s = beginTransfer (hdrUnpack s.file) s := by
  have hread : inRead s.file 0 hdrLen = some (s.file.take hdrLen) :=
    inRead_eq_some.2 ⟨by rw [Nat.zero_add]; exact ha.1, rfl⟩
  simp [openDecode, hio, hread, hdrUnpack_take, headerStatus_of_accepted ha]

end Accepted

/-- R137: the geometry DECODE constructs is the header's. -/
theorem geometry_beginTransfer_hdrUnpack (s : State) (file : List Byte) :
    (beginTransfer (hdrUnpack file) s).width.toInt = fileWidth file ∧
    (beginTransfer (hdrUnpack file) s).height.toInt = fileHeight file ∧
    (beginTransfer (hdrUnpack file) s).format.toNat = fileFormat file :=
  ⟨BitVec.toInt_signExtend_of_le (by decide), BitVec.toInt_signExtend_of_le (by decide), toNat_headerFormat file⟩

end Sys2Proof.Proofs
end

