-- ==== Sys2Proof/Proofs/DecodeAnswer.lean ====
section
/-!
PROOFS. The answer of a DECODE that succeeds, whatever the payload. The layers, in order: the rounds determine the
answer; the rows of the buffer at the end; the answer in terms of the file.
-/

namespace Sys2Proof.Proofs

open Sys2Proof Sys2Proof.Machine Sys2Proof.Safety Sys2Proof.Laws

/-! ### Rounds determine the answer -/

theorem rounds_single {s s' : State} {t : Transfer} (ht : s.transfer = some t) (hr : transferRound t s = .next s') :
    Rounds s s' :=
  .head ht hr (.refl s')

theorem rounds_trans {s s' s'' : State} (h : Rounds s s') (h' : Rounds s' s'') : Rounds s s'' := by
  induction h with
  | refl => exact h'
  | head ht hr _ ih => exact .head ht hr (ih h')

/-- Rounds lead to one state only in which no DECODE is in progress. -/
theorem rounds_unique {s a b : State} (ha : Rounds s a) (hb : Rounds s b) (hea : a.transfer = none)
    (heb : b.transfer = none) : a = b := by
  induction ha with
  | refl s =>
    cases hb with
    | refl => rfl
    | head ht => cases hea.symm.trans ht
  | head ht hr _ ih =>
    cases hb with
    | refl => cases heb.symm.trans ht
    | head ht' hr' rest' =>
      cases ht.symm.trans ht'
      cases hr.symm.trans hr'
      exact ih rest' hea

/-- DECODE answers the state its rounds lead to. -/
theorem execDecode_of_rounds {s s₀ t : State} (ho : openDecode s = s₀) (h : Rounds s₀ t) (ht : t.transfer = none) :
    execDecode s = .next t := by
  subst ho
  obtain ⟨u, hu, hrounds, hend⟩ := execDecode_answers s
  rw [hu, rounds_unique hrounds h hend ht]

/-! ### The rows of the buffer -/

/-- R61: the descriptor's origin bit. -/
theorem and_topLeft_eq_zero_iff {d : Byte} : d &&& topLeft = 0#8 ↔ d.getLsbD 5 = false := by
  have h : d &&& topLeft = if d.getLsbD 5 then topLeft else 0#8 := BitVec.and_twoPow d 5
  rw [h]
  cases d.getLsbD 5 <;> decide

/-- Byte `k` of row `y` lies in the buffer. -/
theorem row_lt_len {s : State} {y k : Nat} (hy : y < heightN s) (hk : k < bpr s) : y * bpr s + k < len s := by
  rw [len_eq_rows]
  calc y * bpr s + k < (y + 1) * bpr s := by rw [Nat.succ_mul]; omega
    _ ≤ heightN s * bpr s := Nat.mul_le_mul_right _ hy

/-- R94, R148: row `y` of the flipped buffer was row `HEIGHT` − 1 − `y`. -/
theorem readByte_flipRows_row {s : State} (hm : Memory.wf s.buf) {y k : Nat} (hy : y < heightN s) (hk : k < bpr s) :
    readByte (flipRows s) (y * bpr s + k) = readByte s.buf ((heightN s - 1 - y) * bpr s + k) := by
  have hdiv : (y * bpr s + k) / bpr s = y := by
    rw [Nat.add_comm, Nat.add_mul_div_right _ _ (by omega), Nat.div_eq_of_lt hk, Nat.zero_add]
  have hmod : (y * bpr s + k) % bpr s = k := by rw [Nat.mul_add_mod_self_right, Nat.mod_eq_of_lt hk]
  rw [readByte_flipRows hm, if_pos (row_lt_len hy hk), hdiv, hmod]

/-- R148: the rows of the payload come to stand in the order the descriptor tells. -/
theorem readByte_finishDecode_row {s : State} (hm : Memory.wf s.buf) (t : Transfer) {y k : Nat} (hy : y < heightN s)
    (hk : k < bpr s) : readByte (finishDecode t s).buf (y * bpr s + k) =
      readByte s.buf ((if t.header.descriptor.getLsbD 5 then y else heightN s - 1 - y) * bpr s + k) := by
  simp only [finishDecode_buf, and_topLeft_eq_zero_iff]
  cases t.header.descriptor.getLsbD 5
  · exact readByte_flipRows_row hm hy hk
  · rfl

/-! ### The end of a DECODE whose payload is stored -/

/-- The state of a DECODE whose payload's bytes are all stored. -/
def filledSlot (bs : List Byte) (t : Transfer) (s : State) : State :=
  { beginTransfer t.header s with buf := writeBytes [] 0 bs, transfer := some t }

/-- R148, R149: what such a DECODE answers, in terms of the file its header is from. -/
theorem finishDecode_filledSlot {s : State} {t : Transfer} {file bs : List Byte} (hth : t.header = hdrUnpack file)
    (hlen : bs.length = len (filledSlot bs t s)) :
    ∃ w h f m, finishDecode t (filledSlot bs t s) = { s with
        valid := true, width := w, height := h, format := f, buf := m, status := .ok, transfer := none } ∧
      w.toInt = fileWidth file ∧ h.toInt = fileHeight file ∧ f.toNat = fileFormat file ∧
      ∀ y k, y < (fileHeight file).toNat → k < (fileWidth file).toNat * fileFormat file →
        readByte m (y * ((fileWidth file).toNat * fileFormat file) + k) =
          bs.getD ((if (file.getD 17 0#8).getLsbD 5 then y else (fileHeight file).toNat - 1 - y) *
            ((fileWidth file).toNat * fileFormat file) + k) 0#8 := by
  obtain ⟨hw, hh, hf⟩ := geometry_beginTransfer_hdrUnpack s file
  rw [← hth] at hw hh hf
  refine ⟨_, _, _, _, rfl, hw, hh, hf, fun y k hy hk => ?_⟩
  rw [← hw, ← hf] at hk ⊢
  rw [← hh] at hy ⊢
  have hrow : (if t.header.descriptor.getLsbD 5 then y else heightN (filledSlot bs t s) - 1 - y) <
      heightN (filledSlot bs t s) := by
    have hy : y < heightN (filledSlot bs t s) := hy
    split <;> omega
  have hm : Memory.wf (filledSlot bs t s).buf := wf_writeBytes wf_nil 0 bs
  have hdesc : t.header.descriptor = file.getD 17 0#8 := congrArg Header.descriptor hth
  refine (readByte_finishDecode_row hm t hy hk).trans ((readByte_writeBytes wf_nil 0 bs _).trans ?_)
  rw [if_pos ⟨Nat.zero_le _, by rw [hlen, Nat.zero_add]; exact row_lt_len hrow hk⟩, Nat.sub_zero, hdesc]
  rfl

end Sys2Proof.Proofs
end

