-- ==== Sys2Proof/Proofs/RleFile.lean ====
section
/-!
PROOFS. DECODE of an RLE file, whatever its chunks are. The layers, in order: the stream and the bytes stored; the
chunks of a stream and their rounds; the rounds from the dispatch to the end; the obligation.
-/

namespace Sys2Proof.Proofs

open Sys2Proof Sys2Proof.Machine Sys2Proof.Safety Sys2Proof.Laws

/-! ### The stream and the bytes stored -/

theorem lt_length_of_drop_eq_cons {file rest : List Byte} {pos : Nat} {h : Byte} (hd : file.drop pos = h :: rest) :
    pos < file.length := by
  by_contra hle
  simp [List.drop_eq_nil_of_le (Nat.not_lt.1 hle)] at hd

/-- Bytes that stand at the cursor are what is read there. -/
theorem inRead_of_drop {file bs rest : List Byte} {pos : Nat} (hp : pos ≤ file.length)
    (hd : file.drop pos = bs ++ rest) : inRead file pos bs.length = some bs := by
  have hlen := congrArg List.length hd
  simp only [List.length_drop, List.length_append] at hlen
  exact inRead_eq_some.2 ⟨by omega, by rw [hd, List.take_left]⟩

theorem writeBytes_append (m : Memory) (a : Nat) (xs ys : List Byte) :
    writeBytes m a (xs ++ ys) = writeBytes (writeBytes m a xs) (a + xs.length) ys := by
  induction xs generalizing m a with
  | nil => rfl
  | cons x xs ih =>
    rw [List.cons_append, writeBytes, ih, writeBytes, List.length_cons, Nat.add_assoc, Nat.add_comm 1]

/-! ### The chunks of a stream -/

/-- R143, R144: a chunk stands for as many pixels as it says. -/
theorem length_streamChunkPixels {n : Nat} {c : StreamChunk} (hc : streamChunkOk n c) :
    (streamChunkPixels c).length = c.2.1 * n := by
  obtain ⟨kind, k, payload⟩ := c
  obtain ⟨-, hlen⟩ := hc
  cases kind with
  | lit => exact hlen
  | rep => exact (length_replicate_flatten k payload).trans (congrArg (k * ·) hlen)

theorem length_flatten_streamChunkPixels {n : Nat} {cs : List StreamChunk} (hcs : ∀ c ∈ cs, streamChunkOk n c) :
    (cs.map streamChunkPixels).flatten.length = (cs.map fun c => c.2.1).sum * n := by
  induction cs with
  | nil => simp
  | cons c cs ih =>
    obtain ⟨hc, hcs⟩ := List.forall_mem_cons.1 hcs
    simp only [List.map_cons, List.flatten_cons, List.length_append, List.sum_cons, length_streamChunkPixels hc, ih hcs,
      Nat.add_mul]

/-! ### The rounds of a chunk stream -/

/-- The locals of a DECODE in progress, one chunk further on in its stream: its header byte and payload read, its
pixels counted. -/
def passChunk (c : StreamChunk) (t : Transfer) : Transfer :=
  { t with pos := t.pos + 1 + c.2.2.length, count := t.count + c.2.1 }

theorem passChunk_pos (c : StreamChunk) (t : Transfer) : (passChunk c t).pos = t.pos + (streamChunkBytes c).length := by
  simp only [passChunk, streamChunkBytes, List.length_cons]
  omega

/-- The state of a DECODE in progress, one chunk further on: the pixels the chunk stands for are stored. -/
def afterChunk (c : StreamChunk) (t : Transfer) (s : State) : State :=
  { s with
    buf := writeBytes s.buf (t.count * bpp s) (streamChunkPixels c)
    transfer := some (passChunk c t) }

/-- The locals of a DECODE in progress, the chunks `cs` further on. -/
def passChunks (cs : List StreamChunk) (t : Transfer) : Transfer :=
  { t with
    pos := t.pos + (cs.map streamChunkBytes).flatten.length
    count := t.count + (cs.map fun c => c.2.1).sum }

/-- The state of a DECODE in progress, the chunks `cs` further on. -/
def afterChunks (cs : List StreamChunk) (t : Transfer) (s : State) : State :=
  { s with
    buf := writeBytes s.buf (t.count * bpp s) (cs.map streamChunkPixels).flatten
    transfer := some (passChunks cs t) }

theorem afterChunks_nil {s : State} {t : Transfer} (ht : s.transfer = some t) : afterChunks [] t s = s := by
  cases s
  cases ht
  rfl

theorem afterChunks_cons {s : State} {c : StreamChunk} (hc : streamChunkOk (bpp s) c) (cs : List StreamChunk)
    (t : Transfer) : afterChunks cs (passChunk c t) (afterChunk c t s) = afterChunks (c :: cs) t s := by
  have hbpp : bpp (afterChunk c t s) = bpp s := rfl
  have hat : (passChunk c t).count * bpp s = t.count * bpp s + (streamChunkPixels c).length := by
    rw [length_streamChunkPixels hc, ← Nat.add_mul]; rfl
  simp only [afterChunks, passChunks, hbpp, hat, passChunk_pos, List.map_cons, List.flatten_cons, List.sum_cons,
    writeBytes_append, List.length_append]
  simp only [afterChunk, passChunk, Nat.add_assoc]

section Payload

variable {s : State} {t : Transfer} {n : Nat} {payload : List Byte} (ht : s.transfer = some t)
  (hn : t.count + n ≤ npix s)
include ht hn

/-- R143: a LIT whose pixels stand at the cursor. -/
theorem exec_lit_of_payload (hlen : payload.length = n * bpp s)
    (hr : inRead s.file t.pos payload.length = some payload) : exec (.lit n) s = .next { s with
      buf := writeBytes s.buf (t.count * bpp s) payload
      transfer := some { t with pos := t.pos + payload.length, count := t.count + n } } := by
  rw [hlen] at hr ⊢
  obtain ⟨bs, hr', he⟩ := exec_lit_of_fits ht hn (inRead_eq_some.1 hr).1
  cases hr.symm.trans hr'
  exact he

/-- R144: a REP whose pixel stands at the cursor. -/
theorem exec_rep_of_payload (hlen : payload.length = bpp s)
    (hr : inRead s.file t.pos payload.length = some payload) : exec (.rep n) s = .next { s with
      buf := writeBytes s.buf (t.count * bpp s) (List.replicate n payload).flatten
      transfer := some { t with pos := t.pos + payload.length, count := t.count + n } } := by
  rw [hlen] at hr ⊢
  obtain ⟨p, hr', he⟩ := exec_rep_of_fits ht hn (inRead_eq_some.1 hr).1
  cases hr.symm.trans hr'
  exact he

end Payload

section Stream

variable {s : State} {t : Transfer} (hp : t.phase = .chunks)
include hp

/-- R140: the chunk loop runs the chunk whose header byte stands at the cursor. -/
theorem transferRound_of_chunk (hc : t.count < npix s) {h : Byte} {rest : List Byte}
    (hd : s.file.drop t.pos = h :: rest) :
    transferRound t s = exec (decodeChunk h) { s with transfer := some { t with pos := t.pos + 1 } } := by
  have hread : inRead s.file t.pos 1 = some [h] := inRead_of_drop (bs := [h]) (lt_length_of_drop_eq_cons hd).le hd
  obtain ⟨n, -, -, hi⟩ := decodeChunk_cases h
  simp only [transferRound, fetchStream, hp, hc, if_true, hread, decode]
  exact execStream_eq_exec _ _ (.inl ⟨n, hi⟩)

/-- R143, R144: a whole chunk at the cursor that the image has room for. -/
theorem transferRound_of_streamChunk {c : StreamChunk} {rest : List Byte} (hc : streamChunkOk (bpp s) c)
    (hn : t.count + c.2.1 ≤ npix s) (hd : s.file.drop t.pos = streamChunkBytes c ++ rest) :
    transferRound t s = .next (afterChunk c t s) := by
  obtain ⟨kind, n, payload⟩ := c
  obtain ⟨hcount, hlen⟩ := hc
  have hn : t.count + n ≤ npix s := hn
  have hpos := lt_length_of_drop_eq_cons hd
  have hpayload : s.file.drop (t.pos + 1) = payload ++ rest := by rw [← List.drop_drop, hd]; rfl
  have hread := inRead_of_drop hpos hpayload
  rw [transferRound_of_chunk hp (by omega) hd]
  cases kind with
  | lit =>
    rw [decodeChunk_litHeader hcount]
    exact exec_lit_of_payload (s := { s with transfer := some { t with pos := t.pos + 1 } }) rfl hn hlen hread
  | rep =>
    rw [decodeChunk_repHeader hcount]
    exact exec_rep_of_payload (s := { s with transfer := some { t with pos := t.pos + 1 } }) rfl hn hlen hread

/-- The chunks of the stream in turn, as long as the image has room. -/
theorem rounds_of_streamChunks {cs : List StreamChunk} {rest : List Byte} (ht : s.transfer = some t)
    (hcs : ∀ c ∈ cs, streamChunkOk (bpp s) c) (hn : t.count + (cs.map fun c => c.2.1).sum ≤ npix s)
    (hd : s.file.drop t.pos = (cs.map streamChunkBytes).flatten ++ rest) : Rounds s (afterChunks cs t s) := by
  induction cs generalizing s t with
  | nil => rw [afterChunks_nil ht]; exact .refl s
  | cons c cs ih =>
    obtain ⟨hc, hcs⟩ := List.forall_mem_cons.1 hcs
    rw [List.map_cons, List.sum_cons, ← Nat.add_assoc] at hn
    rw [List.map_cons, List.flatten_cons, List.append_assoc] at hd
    have hround := transferRound_of_streamChunk hp hc (by omega) hd
    rw [← afterChunks_cons hc]
    refine .head ht hround (ih (s := afterChunk c t s) (t := passChunk c t) hp rfl hcs hn ?_)
    rw [passChunk_pos, ← List.drop_drop]
    exact (congrArg _ hd).trans List.drop_left

/-- R145: once no pixel is missing the DECODE is done. -/
theorem transferRound_of_full (hc : npix s ≤ t.count) : transferRound t s = .next (finishDecode t s) := by
  simp only [transferRound, fetchStream, hp, Nat.not_lt.2 hc, if_false]

end Stream

/-! ### From the dispatch to the end -/

/-- The locals of a DECODE that enters the chunk loop. -/
def enterLoop (t : Transfer) : Transfer := { t with count := 0, phase := .chunks }

/-- A DECODE whose header names an RLE payload enters the chunk loop (R138, R140). -/
theorem transferRound_of_rleCode {s : State} {t : Transfer} (hp : t.phase = .dataType)
    (hd : t.header.dataType.toNat = 10 ∨ t.header.dataType.toNat = 11) :
    transferRound t s = .next (rlePayload t s) := by
  have hcode : t.header.dataType = 0x0A#8 ∨ t.header.dataType = 0x0B#8 :=
    hd.imp BitVec.eq_of_toNat_eq BitVec.eq_of_toNat_eq
  rcases hcode with hcode | hcode <;> simp only [transferRound, fetchStream, hp, hcode, decode] <;> rfl

/-- R140 to R145: from the dispatch to the end, where the chunks make up the image. -/
theorem rounds_of_rlePayload {s : State} {t : Transfer} {cs : List StreamChunk} {rest : List Byte}
    (ht : s.transfer = some t) (hp : t.phase = .dataType)
    (hcode : t.header.dataType.toNat = 10 ∨ t.header.dataType.toNat = 11) (hcs : ∀ c ∈ cs, streamChunkOk (bpp s) c)
    (hsum : (cs.map fun c => c.2.1).sum = npix s)
    (hd : s.file.drop t.pos = (cs.map streamChunkBytes).flatten ++ rest) :
    ∃ u, u.header = t.header ∧ Rounds s (finishDecode u
      { s with buf := writeBytes s.buf 0 (cs.map streamChunkPixels).flatten, transfer := some u }) := by
  have hfull : (passChunks cs (enterLoop t)).count = npix s := (Nat.zero_add _).trans hsum
  have hstart : Rounds s (rlePayload t s) := rounds_single ht (transferRound_of_rleCode hp hcode)
  have hloop : Rounds (rlePayload t s) (afterChunks cs (enterLoop t) (rlePayload t s)) :=
    rounds_of_streamChunks rfl rfl hcs hfull.le hd
  have hend := transferRound_of_full (s := afterChunks cs (enterLoop t) (rlePayload t s))
    (t := passChunks cs (enterLoop t)) rfl hfull.ge
  have hzero : (enterLoop t).count * bpp (rlePayload t s) = 0 := Nat.zero_mul _
  have hall := rounds_trans hstart (rounds_trans hloop (rounds_single rfl hend))
  rw [afterChunks, hzero] at hall
  exact ⟨_, rfl, hall⟩

/-- Settles O54: the rounds of the chunks lead from the dispatch to the slot filled with their pixels, and DECODE
answers the state its rounds lead to. -/
theorem decodeRleFile : Obligations.DecodeRleFile := by
  intro s cs extra hio ha hcode hcs hsum hd
  obtain ⟨hw, hh, hf⟩ := geometry_beginTransfer_hdrUnpack s s.file
  have hnpix : npix (beginTransfer (hdrUnpack s.file) s) = filePixels s.file := by
    rw [npix, widthN, heightN, hw, hh, filePixels]
  have hbpp : bpp (beginTransfer (hdrUnpack s.file) s) = fileFormat s.file := hf
  obtain ⟨u, hu, hrounds⟩ := rounds_of_rlePayload (beginTransfer_transfer s (hdrUnpack s.file)) rfl hcode
    (hbpp ▸ hcs) (hsum.trans hnpix.symm) hd
  have hu : u.header = hdrUnpack s.file := hu
  have hx : execDecode s = .next (finishDecode u (filledSlot (cs.map streamChunkPixels).flatten u s)) := by
    rw [filledSlot, hu]
    exact execDecode_of_rounds (openDecode_of_accepted ha hio) hrounds rfl
  have hlen : (cs.map streamChunkPixels).flatten.length = len (filledSlot (cs.map streamChunkPixels).flatten u s) := by
    rw [length_flatten_streamChunkPixels hcs, hsum, ← hnpix, ← hbpp, ← len_eq_pixels, filledSlot, hu]
    rfl
  obtain ⟨w, h, f, m, he, hrest⟩ := finishDecode_filledSlot hu hlen
  exact ⟨w, h, f, m, hx.trans (congrArg _ he), hrest⟩

end Sys2Proof.Proofs
end

