-- ==== Sys2Proof/Proofs/Indexer.lean ====
section
/-!
PROOFS. The row-major indexer (R86, R87): a pixel's bytes in the buffer, and the pixel that owns an offset.
-/

namespace Sys2Proof.Proofs

open Sys2Proof Sys2Proof.Machine Sys2Proof.Safety Sys2Proof.Laws

/-! ### Coordinates as words -/

/-- A number below a word's value is the value of a word. -/
theorem exists_toInt_eq {v : Word} {n : Nat} (hn : n < v.toInt.toNat) : ∃ x : Word, x.toInt = n := by
  have hv := v.toInt_lt
  refine ⟨BitVec.ofNat 32 n, ?_⟩
  rw [BitVec.toInt_eq_toNat_cond, BitVec.toNat_ofNat, Nat.mod_eq_of_lt (by omega), if_pos (by omega)]

/-- The next coordinate, where the addition does not run into the sign bit. -/
theorem toInt_add_one {x : Word} (hx : 0 ≤ x.toInt) (hx' : 0 ≤ (x + 1#32).toInt) :
    (x + 1#32).toInt = x.toInt + 1 := by
  simp only [BitVec.toInt_eq_toNat_cond, BitVec.toNat_add, BitVec.toNat_ofNat] at *
  omega

/-! ### The pixel at an offset -/

section Geometry

variable {s : State} {x y : Word}

/-- A pixel ends where the next linear number begins. -/
theorem index_add_bpp (s : State) (x y : Word) :
    index s x y + bpp s = (y.toInt.toNat * widthN s + (x.toInt.toNat + 1)) * bpp s := by
  rw [index_eq_mul]; ring

/-- The last pixel of a row ends where the next row begins. -/
theorem index_add_bpp_of_last_column (hw : 0 < s.width.toInt) (hx : x.toInt = s.width.toInt - 1) :
    index s x y + bpp s = (y.toInt.toNat + 1) * bpr s := by
  have hcol : x.toInt.toNat + 1 = widthN s := by unfold widthN; omega
  rw [index_add_bpp, hcol, bpr]; ring

/-- R87 (a): the last pixel ends with the buffer. -/
theorem index_last (hw : 0 < s.width.toInt) (hh : 0 < s.height.toInt) (hx : x.toInt = s.width.toInt - 1)
    (hy : y.toInt = s.height.toInt - 1) : index s x y = len s - bpp s := by
  have hrow : y.toInt.toNat + 1 = heightN s := by unfold heightN; omega
  have hend : index s x y + bpp s = len s := by rw [index_add_bpp_of_last_column hw hx, hrow, len_eq_rows]
  omega

/-- R87 (b), over the integers. -/
theorem cast_index (h : InBounds s x y) :
    (index s x y : Int) = (y.toInt * s.width.toInt + x.toInt) * (bpp s : Int) := by
  obtain ⟨⟨hx0, hx⟩, hy0, -⟩ := h
  rw [index_eq_mul, widthN]
  push_cast
  rw [Int.toNat_of_nonneg hx0, Int.toNat_of_nonneg hy0, Int.toNat_of_nonneg (hx0.trans hx.le)]

/-- A column and a row of the image are in bounds. -/
theorem inBounds_of_toInt_eq {m n : Nat} (hx : x.toInt = m) (hm : m < widthN s) (hy : y.toInt = n)
    (hn : n < heightN s) : InBounds s x y := by
  unfold widthN at hm
  unfold heightN at hn
  omega

/-- R87 (d): the pixel that owns an offset of the buffer. -/
theorem exists_pixel_of_offset {a : Nat} (ha : a < len s) :
    ∃ x y, InBounds s x y ∧ x.toInt = (((a / bpp s) % widthN s : Nat) : Int) ∧ y.toInt = ((a / bpr s : Nat) : Int) ∧
      index s x y ≤ a ∧ a < index s x y + bpp s := by
  have hpos : 0 < len s := by omega
  have hw : 0 < widthN s := Nat.pos_of_mul_pos_left (Nat.pos_of_mul_pos_right hpos)
  have hb : 0 < bpp s := Nat.pos_of_mul_pos_left hpos
  have hcol : a / bpp s % widthN s < widthN s := Nat.mod_lt _ hw
  have hrow : a / bpr s < heightN s := Nat.div_lt_of_lt_mul (by rwa [Nat.mul_comm, ← len_eq_rows])
  obtain ⟨x, hx⟩ := exists_toInt_eq hcol
  obtain ⟨y, hy⟩ := exists_toInt_eq hrow
  have hidx : index s x y = a / bpp s * bpp s := by
    rw [index_eq_mul, hx, hy, Int.toNat_natCast, Int.toNat_natCast, bpr, Nat.mul_comm (widthN s),
      ← Nat.div_div_eq_div_mul, Nat.div_add_mod']
  refine ⟨x, y, inBounds_of_toInt_eq hx hcol hy hrow, hx, hy, ?_, ?_⟩
  · rw [hidx]; exact Nat.div_mul_le_self a _
  · rw [hidx]; exact Nat.lt_div_mul_add hb

/-- R87 (e): the next pixel of the row. -/
theorem index_next_column (h : InBounds s x y) (h' : InBounds s (x + 1#32) y) :
    index s (x + 1#32) y = index s x y + bpp s := by
  rw [index_add_bpp, index_eq_mul, toInt_add_one h.1.1 h'.1.1, Int.toNat_add h.1.1 Int.one_nonneg]; rfl

/-- R87 (e): the first pixel of the next row. -/
theorem index_next_row (h : InBounds s x y) (hx : x.toInt = s.width.toInt - 1) (h' : InBounds s 0#32 (y + 1#32)) :
    index s 0#32 (y + 1#32) = index s x y + bpp s := by
  obtain ⟨⟨hx0, hxw⟩, hy0, -⟩ := h
  rw [index_add_bpp_of_last_column (hx0.trans_lt hxw) hx, index, toInt_add_one hy0 h'.2.1,
    Int.toNat_add hy0 Int.one_nonneg]
  simp

end Geometry

/-- Settles O22, clause by clause of R87. -/
theorem indexProperties : Obligations.IndexProperties :=
  fun _ hw hh _ => ⟨fun _ _ => index_add_bpp_le_len, fun _ _ => index_last hw hh, fun _ _ => cast_index,
    fun _ _ _ _ => index_disjoint, fun _ => exists_pixel_of_offset, fun _ _ => index_next_column,
    fun _ _ => index_next_row⟩

end Sys2Proof.Proofs
end

