-- ==== Sys2Proof/Proofs/ImageBuffer.lean ====
section
/-!
PROOFS. The image buffer family: the converter's laws, NEW, GET, SET and CLEAR whole, GET right after NEW or CLEAR, and
the five commands that need an image. The layers, in order: the converter; NEW's tests; the commands whose tests fail;
the obligations.
-/

namespace Sys2Proof.Proofs

open Sys2Proof Sys2Proof.Machine Sys2Proof.Safety Sys2Proof.Laws

/-! ### The converter -/

theorem formatCode_le_four {n : Nat} (hn : FormatCode n) : n ≤ 4 := by omega

/-- R90 (b): storing the pixel that was read changes nothing. -/
theorem pack_unpack {m : Memory} (hm : Memory.wf m) {n : Nat} (hn : n ≤ 4) (a : Nat) :
    pack m n a (unpack m n a) = m := by
  refine memory_ext (wf_pack hm n a _) hm fun x => ?_
  rw [readByte_pack hm]
  split
  · rename_i hx
    rw [channel_unpack m n a (by omega), if_pos (by omega), Nat.add_sub_cancel' hx.1]
  · rfl

/-- R90 (c): the bytes that a pixel of `n` bytes takes with it into a format of `n'` bytes. -/
theorem packBytes_unpack (m : Memory) (n a : Nat) {n' : Nat} (hn' : n' ≤ 4) :
    packBytes n' (unpack m n a) = (List.range n').map fun k => if k < n then readByte m (a + k) else fill :=
  List.map_congr_left fun k hk => channel_unpack m n a (by have := List.mem_range.1 hk; omega)

/-- A pixel of zero bytes reads as the bits forced into it alone. -/
theorem unpack_of_zero {m : Memory} {n a : Nat} (hn : FormatCode n) (hz : ∀ k < n, readByte m (a + k) = 0#8) :
    unpack m n a = missingSlots n := by
  refine color_ext fun k hk => ?_
  rw [channel_unpack m n a hk, channel_missingSlots hn hk]
  split
  · exact hz k ‹_›
  · rfl

/-- Settles O23, law by law. -/
theorem converterLaws : Obligations.ConverterLaws :=
  fun m n a c hm hn => ⟨unpack_pack hm hn a c, pack_unpack hm (formatCode_le_four hn) a,
    fun _ hn' => packBytes_unpack m n a (formatCode_le_four hn')⟩

/-! ### NEW's tests -/

section NewTests

variable {c : Config} {w h f : Word}

/-- The size of an image, as the machine and as R81 compute it. -/
theorem natSize_le_iff (hw : 0 < w.toInt) (hh : 0 < h.toInt) {n : Nat} :
    h.toInt.toNat * w.toInt.toNat * f.toNat ≤ n ↔ h.toInt * w.toInt * (f.toNat : Int) ≤ n := by
  rw [← Int.ofNat_le]
  push_cast
  rw [Int.toNat_of_nonneg hh.le, Int.toNat_of_nonneg hw.le]

theorem newStatus_of_badSize (hd : w.toInt ≤ 0 ∨ h.toInt ≤ 0) : newStatus c w h f = .invalidDimensions := if_pos hd

theorem newStatus_of_badFormat (hw : 0 < w.toInt) (hh : 0 < h.toInt) (hf : ¬ FormatCode f.toNat) :
    newStatus c w h f = .unsupportedFormat :=
  (if_neg (by omega)).trans (if_pos hf)

theorem newStatus_of_tooLarge (hw : 0 < w.toInt) (hh : 0 < h.toInt) (hf : FormatCode f.toNat)
    (hc : c.bufCap < h.toInt.toNat * w.toInt.toNat * f.toNat) : newStatus c w h f = .capacityExceeded :=
  (if_neg (by omega)).trans ((if_neg (not_not.2 hf)).trans (if_pos hc))

/-- A format code keeps its value in the 8 bits of `FORMAT`. -/
theorem toNat_setWidth_format (hf : FormatCode f.toNat) : (f.setWidth 8).toNat = f.toNat := by
  rw [BitVec.toNat_setWidth, Nat.mod_eq_of_lt (by omega)]

end NewTests

/-! ### The commands whose tests fail -/

section Fails

variable {s : State} {w h f x y : Word}

theorem execNew_of_error {e : Status} (hs : newStatus s.cfg w h f = e) (he : e ≠ .ok) :
    execNew w h f s = .next { s with status := e } := by
  subst hs
  exact ((execNew_cases w h f s).resolve_left fun hok => he hok.1).2

theorem execGet_of_error {e : Status} (hs : getStatus s x y = e) (he : e ≠ .ok) :
    ∃ r d, execGet x y s = .next { s with status := e, result := r, draws := d } := by
  subst hs
  exact ⟨_, _, ((execGet_cases x y s).resolve_left fun hok => he hok.1).2⟩

theorem execGet_of_outOfBounds (hv : s.valid = true) (hb : ¬ InBounds s x y) :
    ∃ r d, execGet x y s = .next { s with status := .outOfBounds, result := r, draws := d } :=
  execGet_of_error ((if_neg (not_not.2 hv)).trans (if_pos hb)) nofun

section NoImage

variable (hv : s.valid = false)
include hv

theorem execGet_of_invalid :
    ∃ r d, execGet x y s = .next { s with status := .noImage, result := r, draws := d } :=
  execGet_of_error (if_pos (by simp [hv])) nofun

theorem execSet_of_invalid (c : Word) : execSet x y c s = .next { s with status := .noImage } := by
  rcases execSet_cases x y c s with ⟨hv', -⟩ | ⟨hv', -⟩ | ⟨-, he⟩
  · simp [hv] at hv'
  · simp [hv] at hv'
  · exact he

theorem execClear_of_invalid : execClear s = .next { s with status := .noImage } :=
  ((execClear_cases s).resolve_left fun hv' => by simp [hv] at hv').2

theorem execFlip_of_invalid : execFlip s = .next { s with status := .noImage } :=
  ((execFlip_cases s).resolve_left fun hv' => by simp [hv] at hv').2

theorem execEncode_of_invalid (rle : Bool) : execEncode rle s = .next { s with status := .noImage } := by
  have hs : encodeStatus s = .noImage := if_pos (by simp [hv])
  rcases execEncode_cases rle s with ⟨hok, -⟩ | ⟨-, he⟩
  · simp [hs] at hok
  · rw [he, hs]

end NoImage

end Fails

/-- Settles O31, one command at a time. -/
theorem noImageFails : Obligations.NoImageFails :=
  fun _ _ _ c rle hv => ⟨execSet_of_invalid hv c, execClear_of_invalid hv, execFlip_of_invalid hv,
    execEncode_of_invalid hv rle, execGet_of_invalid hv⟩

/-! ### The commands, whole -/

/-- Settles O24: each clause is one answer of NEW's tests. -/
theorem newCommand : Obligations.NewCommand := by
  intro s w h f
  refine ⟨rfl, fun hw hh hf hc => ?_, fun hd => ?_, fun hw hh hf => ?_, fun hw hh hf hc => ?_⟩
  · have hok := newStatus_eq_ok.2 ⟨hw, hh, hf, (natSize_le_iff hw hh).2 hc⟩
    exact ⟨_, _, execNew_of_ok hok, toNat_setWidth_format hf, readByte_nil⟩
  · exact execNew_of_error (newStatus_of_badSize hd) nofun
  · exact execNew_of_error (newStatus_of_badFormat hw hh hf) nofun
  · have hlarge := Nat.lt_of_not_le fun hle => hc.not_ge ((natSize_le_iff hw hh).1 hle)
    exact execNew_of_error (newStatus_of_tooLarge hw hh hf hlarge) nofun

/-- Settles O25: the Color read is `unpack`'s, slot by slot. -/
theorem getCommand : Obligations.GetCommand :=
  fun _ _ _ _ => ⟨rfl, fun hv hb => ⟨_, execGet_of_ok (getStatus_eq_ok.2 ⟨hv, hb⟩) rfl,
    fun _ hk => channel_unpack _ _ _ hk⟩, execGet_of_invalid, execGet_of_outOfBounds⟩

/-- Settles O26: the bytes stored are `pack`'s. -/
theorem setCommand : Obligations.SetCommand :=
  fun _ _ _ c hm => ⟨rfl, fun hv hb => ⟨_, execSet_of_inBounds hv hb c, readByte_pack hm _ _ c⟩,
    fun hv hb => execSet_of_outOfBounds hv hb c, fun hv => execSet_of_invalid hv c⟩

/-- Settles O27: the bytes are those of the zero fill. -/
theorem clearCommand : Obligations.ClearCommand :=
  fun _ _ _ _ => ⟨rfl, fun hv => ⟨_, execClear_of_valid hv, readByte_zeroFill _ _⟩, execClear_of_invalid⟩

/-! ### GET after NEW or CLEAR -/

section ZeroImage

variable {s t : State} {x y : Word}

/-- R83: a pixel of an image whose bytes are all 0x00. -/
theorem execGet_of_zero (hv : t.valid = true) (hok : t.status = .ok) (hf : FormatCode (bpp t)) (hb : InBounds t x y)
    (hz : ∀ a < len t, readByte t.buf a = 0#8) :
    execGet x y t = .next { t with result := missingSlots (bpp t) } := by
  have hlast := index_add_bpp_le_len hb
  have hpixel : unpack t.buf (bpp t) (index t x y) = missingSlots (bpp t) :=
    unpack_of_zero hf fun k hk => hz _ (by omega)
  rw [execGet_of_ok (getStatus_eq_ok.2 ⟨hv, hb⟩) hpixel, ← hok]

/-- R83: NEW that succeeds leaves an image of zero bytes. -/
theorem execNew_zero {w h f : Word} (hx : execNew w h f s = .next t) (hok : t.status = .ok) :
    t.valid = true ∧ ∀ a < len t, readByte t.buf a = 0#8 := by
  rcases execNew_cases w h f s with ⟨-, he⟩ | ⟨hs, he⟩ <;> cases hx.symm.trans he
  · exact ⟨rfl, fun a _ => readByte_nil a⟩
  · exact absurd hok hs

/-- R83: CLEAR that succeeds leaves an image of zero bytes. -/
theorem execClear_zero (hx : execClear s = .next t) (hok : t.status = .ok) :
    t.valid = true ∧ ∀ a < len t, readByte t.buf a = 0#8 := by
  rcases execClear_cases s with ⟨hv, he⟩ | ⟨-, he⟩ <;> cases hx.symm.trans he
  · exact ⟨hv, fun a ha => (readByte_zeroFill s.buf (len s) a).trans (if_pos ha)⟩
  · simp at hok

end ZeroImage

/-- Settles O33: both commands leave an image of zero bytes. -/
theorem getAfterConstruction : Obligations.GetAfterConstruction := by
  intro s t i x y hi hx hok hf hb
  obtain ⟨hv, hz⟩ : t.valid = true ∧ ∀ a < len t, readByte t.buf a = 0#8 := by
    rcases hi with ⟨w, h, f, rfl⟩ | rfl
    · exact execNew_zero hx hok
    · exact execClear_zero hx hok
  exact execGet_of_zero hv hok hf hb hz

end Sys2Proof.Proofs
end

