-- ==== Sys2Proof/Proofs/Flip.lean ====
section
/-!
PROOFS. FLIP (R94, R95): the command whole, two FLIPs, and the loop of row swaps, which permutes the rows of the buffer
as the end state does. The layers, in order: the rows of the flipped buffer; the inner loop; the outer loop.
-/

namespace Sys2Proof.Proofs

open Sys2Proof Sys2Proof.Machine Sys2Proof.Safety Sys2Proof.Laws

/-! ### The rows of the flipped buffer -/

theorem execFlip_of_valid {s : State} (hv : s.valid = true) :
    execFlip s = .next { s with buf := flipRows s, status := .ok } :=
  ((execFlip_cases s).resolve_right fun hnv => by simp [hv] at hnv).2

/-- FLIP keeps every byte from `LEN` on. -/
theorem readByte_flipRows_of_len_le {s : State} (hm : Memory.wf s.buf) {a : Nat} (ha : len s ≤ a) :
    readByte (flipRows s) a = readByte s.buf a := by
  rw [readByte_flipRows hm, if_neg (by omega)]

/-- Settles O28: the bytes are those of the flipped rows. -/
theorem flipCommand : Obligations.FlipCommand :=
  fun _ _ _ _ hm => ⟨rfl, fun hv => ⟨_, execFlip_of_valid hv, fun _ _ => readByte_flipRows_row hm,
    fun _ => readByte_flipRows_of_len_le hm⟩, execFlip_of_invalid⟩

/-- Canonical memories with the same rows and the same bytes from `LEN` on are equal. -/
theorem memory_ext_rows (s : State) {m n : Memory} (hm : Memory.wf m) (hn : Memory.wf n)
    (hrows : ∀ y k, y < heightN s → k < bpr s → readByte m (y * bpr s + k) = readByte n (y * bpr s + k))
    (hrest : ∀ a, len s ≤ a → readByte m a = readByte n a) : m = n := by
  refine memory_ext hm hn fun a => ?_
  rcases Nat.lt_or_ge a (len s) with ha | ha
  · rw [len_eq_rows] at ha
    have hrow : a / bpr s < heightN s := Nat.div_lt_of_lt_mul (by rwa [Nat.mul_comm])
    have hcol : a % bpr s < bpr s := Nat.mod_lt _ (Nat.pos_of_lt_mul_left ha)
    simpa only [Nat.div_add_mod'] using hrows _ _ hrow hcol
  · exact hrest a ha

/-- R95: flipping the flipped buffer gives the buffer back. -/
theorem flipRows_flipRows {s : State} (hm : Memory.wf s.buf) (e : Status) :
    flipRows { s with buf := flipRows s, status := e } = s.buf := by
  have hflip := wf_flipRows hm
  refine memory_ext_rows s (wf_flipRows hflip) hm (fun y k hy hk => ?_) fun a ha => ?_
  · refine (readByte_flipRows_row (s := { s with buf := _, status := e }) hflip hy hk).trans ?_
    refine (readByte_flipRows_row hm (y := heightN s - 1 - y) (by omega) hk).trans ?_
    rw [show heightN s - 1 - (heightN s - 1 - y) = y by omega]
  · exact (readByte_flipRows_of_len_le (s := { s with buf := _, status := e }) hflip ha).trans
      (readByte_flipRows_of_len_le hm ha)

/-- Settles O30: the second FLIP gives the buffer back, and neither changes the rest. -/
theorem flipTwiceRestores : Obligations.FlipTwiceRestores := by
  intro s hm hv
  refine ⟨_, execFlip_of_valid hv, (execFlip_of_valid (s := { s with buf := _, status := .ok }) hv).trans ?_⟩
  rw [flipRows_flipRows hm]

/-! ### The inner loop: two rows change places -/

/-- Rows of `w` bytes share no offset. -/
theorem rowOffset_inj {w y z k c : Nat} (hk : k < w) (hc : c < w) : y * w + k = z * w + c ↔ y = z ∧ k = c := by
  refine ⟨fun h => ?_, fun ⟨hyz, hkc⟩ => by rw [hyz, hkc]⟩
  have hcol := congrArg (· % w) h
  simp only [Nat.mul_add_mod_self_right, Nat.mod_eq_of_lt hk, Nat.mod_eq_of_lt hc] at hcol
  rw [hcol] at h
  exact ⟨Nat.eq_of_mul_eq_mul_right (by omega) (Nat.add_right_cancel h), hcol⟩

/-- One round of the inner loop (R94): byte `k` of row `i` and byte `k` of row `j` change places. -/
def swapByte (m : Memory) (p q k : Nat) : Memory :=
  writeByte (writeByte m (p + k) (readByte m (q + k))) (q + k) (readByte m (p + k))

theorem wf_swapByte {m : Memory} (hm : Memory.wf m) (p q k : Nat) : Memory.wf (swapByte m p q k) :=
  wf_writeByte (wf_writeByte hm _ _) _ _

theorem swapSpan_succ (m : Memory) (p q k n : Nat) :
    swapSpan m p q k (n + 1) = swapSpan (swapByte m p q k) p q (k + 1) n := rfl

theorem readByte_swapByte {m : Memory} (hm : Memory.wf m) {w k c : Nat} (i j y : Nat) (hk : k < w) (hc : c < w) :
    readByte (swapByte m (i * w) (j * w) k) (y * w + c) =
      readByte m ((if c = k then Equiv.swap i j y else y) * w + c) := by
  rw [swapByte, readByte_writeByte (wf_writeByte hm _ _).1, readByte_writeByte hm.1]
  simp only [rowOffset_inj hc hk]
  rcases eq_or_ne c k with rfl | hck
  · rcases eq_or_ne y j with rfl | hj
    · simp
    · rcases eq_or_ne y i with rfl | hi
      · simp [hj]
      · simp [hi, hj, Equiv.swap_apply_of_ne_of_ne hi hj]
  · simp [hck]

theorem wf_swapSpan {m : Memory} (hm : Memory.wf m) (p q k n : Nat) : Memory.wf (swapSpan m p q k n) := by
  induction n generalizing m k with
  | zero => exact hm
  | succ n ih => exact ih (wf_swapByte hm p q k) _

/-- The inner loop from byte `k` on has made the bytes from there on change places. -/
theorem readByte_swapSpan {m : Memory} (hm : Memory.wf m) {w k n c : Nat} (i j y : Nat) (hn : k + n ≤ w) (hc : c < w) :
    readByte (swapSpan m (i * w) (j * w) k n) (y * w + c) =
      readByte m ((if k ≤ c ∧ c < k + n then Equiv.swap i j y else y) * w + c) := by
  induction n generalizing m k with
  | zero => rw [if_neg (by omega)]; rfl
  | succ n ih =>
    rw [swapSpan_succ, ih (wf_swapByte hm _ _ k) (by omega), readByte_swapByte hm i j _ (by omega) hc]
    rcases Nat.lt_trichotomy c k with h | rfl | h
    · rw [if_neg (by omega), if_neg (by omega), if_neg (by omega)]
    · rw [if_pos rfl, if_neg (by omega), if_pos (by omega)]
    · have hrest : k + 1 ≤ c ∧ c < k + 1 + n ↔ k ≤ c ∧ c < k + (n + 1) := by omega
      rw [if_neg (by omega), if_congr hrest rfl rfl]

/-! ### The outer loop: the rows from the two ends inwards -/

/-- The row that ends up as row `y` of `h` rows when the loop starts at row `i` and runs `n` times. -/
def swappedRow (h i n y : Nat) : Nat :=
  if y < h ∧ (i ≤ y ∧ y < i + n ∨ i ≤ h - 1 - y ∧ h - 1 - y < i + n) then h - 1 - y else y

theorem swap_swappedRow {h i n : Nat} (hn : i + (n + 1) ≤ h / 2) (y : Nat) :
    Equiv.swap i (h - 1 - i) (swappedRow h (i + 1) n y) = swappedRow h i (n + 1) y := by
  simp only [swappedRow, Equiv.swap_apply_def]
  split_ifs <;> omega

/-- After `HEIGHT` div 2 rounds every row has changed places with its mirror image. -/
theorem swappedRow_half (h y : Nat) : swappedRow h 0 (h / 2) y = if y < h then h - 1 - y else y := by
  unfold swappedRow
  split_ifs <;> omega

theorem wf_swapRows {m : Memory} (hm : Memory.wf m) (h w i n : Nat) : Memory.wf (swapRows m h w i n) := by
  induction n generalizing m i with
  | zero => exact hm
  | succ n ih => exact ih (wf_swapSpan hm _ _ _ _) _

theorem readByte_swapRows {m : Memory} (hm : Memory.wf m) {h w i n k : Nat} (hn : i + n ≤ h / 2) (y : Nat)
    (hk : k < w) : readByte (swapRows m h w i n) (y * w + k) = readByte m (swappedRow h i n y * w + k) := by
  induction n generalizing m i with
  | zero => rw [swappedRow, if_neg (by omega)]; rfl
  | succ n ih =>
    rw [swapRows, ih (wf_swapSpan hm _ _ _ _) (by omega), readByte_swapSpan hm _ _ _ (by omega) hk,
      if_pos (by omega), swap_swappedRow hn]

/-- Rows of no bytes hold nothing to swap. -/
theorem swapRows_of_zero_width (m : Memory) (h i n : Nat) : swapRows m h 0 i n = m := by
  induction n generalizing i with
  | zero => rfl
  | succ n ih => exact ih (i + 1)

/-- R94's loop, row by row; the rows past the image stay. -/
theorem readByte_flipLoop_row {s : State} (hm : Memory.wf s.buf) (y : Nat) {k : Nat} (hk : k < bpr s) :
    readByte (flipLoop s) (y * bpr s + k) =
      readByte s.buf ((if y < heightN s then heightN s - 1 - y else y) * bpr s + k) := by
  rw [flipLoop, readByte_swapRows hm (Nat.zero_add _).le y hk, swappedRow_half]

theorem readByte_flipLoop_of_len_le {s : State} (hm : Memory.wf s.buf) {a : Nat} (ha : len s ≤ a) :
    readByte (flipLoop s) a = readByte s.buf a := by
  rcases Nat.eq_zero_or_pos (bpr s) with hw | hw
  · rw [flipLoop, hw, swapRows_of_zero_width]
  · have hrow : heightN s ≤ a / bpr s := (Nat.le_div_iff_mul_le hw).2 (len_eq_rows s ▸ ha)
    have hread := readByte_flipLoop_row hm (a / bpr s) (Nat.mod_lt a hw)
    rwa [if_neg hrow.not_gt, Nat.div_add_mod'] at hread

/-- Settles O29: the loop and the end state put the same bytes into every row and keep the same bytes past the image. -/
theorem flipLoopReachesEndState : Obligations.FlipLoopReachesEndState := by
  intro s hm
  refine memory_ext_rows s (wf_swapRows hm _ _ _ _) (wf_flipRows hm) (fun y k hy hk => ?_) fun a ha => ?_
  · rw [readByte_flipLoop_row hm y hk, if_pos hy, readByte_flipRows_row hm hy hk]
  · rw [readByte_flipLoop_of_len_le hm ha, readByte_flipRows_of_len_le hm ha]

end Sys2Proof.Proofs
end

