-- ==== Sys2Proof/Proofs/Encode.lean ====
section
/-!
PROOFS. ENCODE whole (R106, R107, R112, R124): its tests, the file it appends, and what it leaves unchanged.
-/

namespace Sys2Proof.Proofs

open Sys2Proof Sys2Proof.Machine Sys2Proof.Safety Sys2Proof.Laws

/-! ### The file -/

@[simp] theorem length_hdrPack (h : Header) : (hdrPack h).length = 18 := rfl

/-- R106: the file begins with its packed header. -/
theorem take_encodedFile (rle : Bool) (s : State) : (encodedFile rle s).take 18 = hdrPack (buildHeader rle s) :=
  List.take_left' (length_hdrPack _)

/-- R106: its payload follows. -/
theorem drop_encodedFile (rle : Bool) (s : State) : (encodedFile rle s).drop 18 = payload rle s :=
  List.drop_left' (length_hdrPack _)

theorem length_encodedFile (rle : Bool) (s : State) : (encodedFile rle s).length = 18 + (payload rle s).length := by
  rw [encodedFile, List.length_append, length_hdrPack]

/-- R112: byte `a` of a raw payload. -/
theorem getElem?_payload_raw {s : State} {a : Nat} (ha : a < len s) :
    (payload false s)[a]? = some (readByte s.buf a) := by
  have hlen : a < (readBytes s.buf 0 (len s)).length := by rwa [length_readBytes]
  rw [payload, if_neg Bool.false_ne_true, List.getElem?_eq_getElem hlen, getElem_readBytes, Nat.zero_add]

/-! ### The tests and the answers -/

section Answers

variable {s : State}

/-- ENCODE's tests all pass exactly where the slot holds an image whose sizes fit the header and the output accepts the
file (R107). -/
theorem encodeStatus_eq_ok : encodeStatus s = .ok ↔
    s.valid = true ∧ s.width.toInt ≤ 32767 ∧ s.height.toInt ≤ 32767 ∧ s.ioFail = false := by
  unfold encodeStatus dimMaxEnc
  by_cases hv : s.valid = true
  · by_cases hd : 32767 < s.width.toInt ∨ 32767 < s.height.toInt
    · simp only [hv, not_true, if_false, if_pos hd, reduceCtorEq, false_iff]; omega
    · obtain ⟨hw, hh⟩ : s.width.toInt ≤ 32767 ∧ s.height.toInt ≤ 32767 := by omega
      simp [hv, hd, hw, hh]
  · simp [hv]

section Valid

variable (hv : s.valid = true)
include hv

theorem encodeStatus_of_tooLarge (hd : 32767 < s.width.toInt ∨ 32767 < s.height.toInt) :
    encodeStatus s = .dimensionOverflow :=
  (if_neg (not_not.2 hv)).trans (if_pos hd)

theorem encodeStatus_of_ioFail (hw : s.width.toInt ≤ 32767) (hh : s.height.toInt ≤ 32767) (hio : s.ioFail = true) :
    encodeStatus s = .ioError :=
  (if_neg (not_not.2 hv)).trans ((if_neg (not_or.2 ⟨hw.not_gt, hh.not_gt⟩)).trans (if_pos hio))

theorem execEncode_of_fits (hw : s.width.toInt ≤ 32767) (hh : s.height.toInt ≤ 32767) (hio : s.ioFail = false)
    (rle : Bool) : execEncode rle s = .next { s with out := s.out ++ [encodedFile rle s], status := .ok } :=
  ((execEncode_cases rle s).resolve_right fun hne => hne.1 (encodeStatus_eq_ok.2 ⟨hv, hw, hh, hio⟩)).2

end Valid

theorem execEncode_of_error {e : Status} (hs : encodeStatus s = e) (he : e ≠ .ok) (rle : Bool) :
    execEncode rle s = .next { s with status := e } := by
  subst hs
  exact ((execEncode_cases rle s).resolve_left fun hok => he hok.1).2

end Answers

/-! ### The obligations -/

/-- Settles O38: both answers of ENCODE write nothing but `OUT` and `STATUS`. -/
theorem encodeKeepsImage : Obligations.EncodeKeepsImage := by
  intro s rle
  rcases execEncode_cases rle s with ⟨-, he⟩ | ⟨-, he⟩
  · exact ⟨_, he, rfl, rfl, rfl, rfl, rfl, rfl⟩
  · exact ⟨_, he, rfl, rfl, rfl, rfl, rfl, rfl⟩

/-- Settles O35: each clause is one answer of ENCODE's tests, and the file is the header and then the payload. -/
theorem encodeCommand : Obligations.EncodeCommand :=
  fun _ rle _ _ _ => ⟨rfl, fun hv => execEncode_of_invalid hv rle,
    fun hv hd => execEncode_of_error (encodeStatus_of_tooLarge hv hd) nofun rle,
    fun hv hw hh hio => execEncode_of_error (encodeStatus_of_ioFail hv hw hh hio) nofun rle,
    fun hv hw hh hio => ⟨_, execEncode_of_fits hv hw hh hio rle, take_encodedFile rle _, drop_encodedFile rle _⟩⟩

/-- Settles O37: past the 18 bytes of the header the file is the buffer. -/
theorem rawFileLayout : Obligations.RawFileLayout := by
  intro s hv hw hh hio
  refine ⟨_, execEncode_of_fits hv hw hh hio false, ?_, fun a ha => ?_⟩
  · exact (length_encodedFile false s).trans (congrArg (18 + ·) (length_readBytes s.buf 0 (len s)))
  · rw [← List.getElem?_drop, drop_encodedFile, getElem?_payload_raw ha]

end Sys2Proof.Proofs
end

