-- ==== Sys2Proof/Proofs/Packer.lean ====
section
/-!
PROOFS. The RLE packer (R113 to R122). The layers, in order: the two run lengths; R120's one loop; the classification;
the chunk in its row; the stream as its chunks, and its size.
-/

namespace Sys2Proof.Proofs

open Sys2Proof Sys2Proof.Machine Sys2Proof.Safety Sys2Proof.Laws

/-! ### The run lengths -/

section Scans

variable {s : State} {p lim n k : Nat}

/-- R116's loop, with rounds enough to reach the bound: it passes equal neighbours and stops at two that differ. -/
theorem repGrow_spec (hn : n ≤ lim) (hk : lim ≤ n + k) :
    n ≤ repGrow s p lim n k ∧ repGrow s p lim n k ≤ lim ∧
    (∀ j, n ≤ j → j < repGrow s p lim n k → pixel s (p + (j - 1)) = pixel s (p + j)) ∧
    (repGrow s p lim n k < lim →
      pixel s (p + (repGrow s p lim n k - 1)) ≠ pixel s (p + repGrow s p lim n k)) := by
  induction k generalizing n with
  | zero => exact ⟨le_rfl, hn, fun j hj hlt => absurd hlt hj.not_gt, fun hlt => absurd hlt hk.not_gt⟩
  | succ k ih =>
    rw [repGrow]
    split
    case isTrue hgrow =>
      obtain ⟨hlt, heq⟩ := hgrow
      obtain ⟨hge, hle, hpassed, hstop⟩ := ih (n := n + 1) hlt (by omega)
      refine ⟨by omega, hle, fun j hj hjr => ?_, hstop⟩
      rcases hj.eq_or_lt with rfl | hj
      · exact heq
      · exact hpassed j hj hjr
    case isFalse hend =>
      exact ⟨le_rfl, hn, fun j hj hlt => absurd hlt hj.not_gt, fun hlt heq => hend ⟨hlt, heq⟩⟩

/-- R117's loop, with rounds enough to reach the bound: it passes neighbours that differ and stops before two equal
ones; the last pixel of the bound joins uncompared. -/
theorem litGrow_spec (hn : n < lim) (hk : lim ≤ n + k) :
    n ≤ litGrow s p lim n k ∧ litGrow s p lim n k ≤ lim ∧
    (∀ j, n ≤ j → j < litGrow s p lim n k → j + 2 ≤ lim → pixel s (p + j) ≠ pixel s (p + (j + 1))) ∧
    (litGrow s p lim n k < lim → litGrow s p lim n k + 2 ≤ lim ∧
      pixel s (p + litGrow s p lim n k) = pixel s (p + (litGrow s p lim n k + 1))) := by
  induction k generalizing n with
  | zero => omega
  | succ k ih =>
    rw [litGrow, if_pos hn]
    split
    case isTrue hlast =>
      exact ⟨hn.le, le_rfl, fun j hj _ hj2 => by omega, fun hlt => absurd hlt (lt_irrefl lim)⟩
    case isFalse hlast =>
      split
      case isTrue heq =>
        exact ⟨le_rfl, hn.le, fun j hj hlt => absurd hlt hj.not_gt, fun _ => ⟨by omega, heq⟩⟩
      case isFalse hne =>
        obtain ⟨hge, hle, hpassed, hstop⟩ := ih (n := n + 1) (by omega) (by omega)
        refine ⟨by omega, hle, fun j hj hjr hj2 => ?_, hstop⟩
        rcases hj.eq_or_lt with rfl | hj
        · exact hne
        · exact hpassed j hj hjr hj2

/-- A run in which each pixel is the one before it again is one pixel repeated. -/
theorem pixel_eq_first {r : Nat} (h : ∀ j, 1 ≤ j → j < r → pixel s (p + (j - 1)) = pixel s (p + j)) {j : Nat}
    (hj : j < r) : pixel s (p + j) = pixel s p := by
  induction j with
  | zero => rfl
  | succ j ih => exact (h (j + 1) (by omega) hj).symm.trans (ih (by omega))

end Scans

/-- Settles O39: the loop starts at 2, the first two pixels being equal. -/
theorem repRunLength : Obligations.RepRunLength := by
  intro s p lim hlim heq
  obtain ⟨hge, hle, hpassed, hstop⟩ := repGrow_spec (s := s) (p := p) hlim (Nat.le_add_left lim 2)
  refine ⟨hge, hle, hpassed, hstop, fun j => pixel_eq_first fun i hi hir => ?_⟩
  rcases hi.eq_or_lt with rfl | hi
  · exact heq
  · exact hpassed i hi hir

/-- Settles O40: the loop starts at 1, the first two pixels being different. -/
theorem litRunLength : Obligations.LitRunLength :=
  fun _ _ lim hlim _ => litGrow_spec hlim (Nat.le_add_left lim 1)

/-! ### R120's one loop -/

section OneLoop

variable {s : State} {p lim n : Nat}

/-- From two pixels on, the loop in a replicate run is R116's. -/
theorem runLoop_rep (k : Nat) (hn : 2 ≤ n) (hk : lim ≤ n + k) :
    runLoop s p lim n false k = (.rep, repGrow s p lim n (k + 1)) := by
  induction k generalizing n with
  | zero => rw [repGrow, if_neg (by omega)]; rfl
  | succ k ih =>
    rw [repGrow]
    by_cases hlt : n < lim
    · by_cases heq : pixel s (p + (n - 1)) = pixel s (p + n)
      · simp [runLoop, hlt, heq, show n ≠ 1 by omega, ih (n := n + 1) (by omega) (by omega)]
      · simp [runLoop, hlt, heq, show n ≠ 1 by omega]
    · simp [runLoop, hlt]

/-- From two pixels on, the loop in a literal run is R117's, one pixel ahead of it. -/
theorem runLoop_lit (k : Nat) (hn : 1 ≤ n) (hlt : n < lim) (hk : lim ≤ n + 1 + k) :
    runLoop s p lim (n + 1) true k = (.lit, litGrow s p lim n (k + 1)) := by
  induction k generalizing n with
  | zero => rw [litGrow, if_pos hlt, if_pos (by omega), show lim = n + 1 by omega]; rfl
  | succ k ih =>
    rw [litGrow, if_pos hlt]
    by_cases hlast : n = lim - 1
    · simp [runLoop, hlast, show lim - 1 + 1 = lim by omega]
    · rw [if_neg hlast]
      by_cases heq : pixel s (p + n) = pixel s (p + (n + 1))
      · simp [runLoop, show n + 1 < lim by omega, heq, show n ≠ 0 by omega]
      · simp [runLoop, show n + 1 < lim by omega, heq, show n ≠ 0 by omega, ih (n := n + 1) (by omega) (by omega)
          (by omega)]

end OneLoop

/-! ### The classification -/

section Classify

variable {s : State} {p lim : Nat}

theorem classify_of_lone (hone : lim = 1) : classify s p lim = (.lit, 1) := if_pos hone

theorem classify_of_eq (hlim : 2 ≤ lim) (heq : pixel s p = pixel s (p + 1)) :
    classify s p lim = (.rep, repLen s p lim) :=
  (if_neg (by omega)).trans (if_pos heq)

theorem classify_of_ne (hlim : 2 ≤ lim) (hne : pixel s p ≠ pixel s (p + 1)) :
    classify s p lim = (.lit, litLen s p lim) :=
  (if_neg (by omega)).trans (if_neg hne)

/-- R115: a lone pixel, a replicate run or a literal run. -/
theorem classify_cases (s : State) (p : Nat) (hlim : 1 ≤ lim) :
    (lim = 1 ∧ classify s p lim = (.lit, 1)) ∨
    (2 ≤ lim ∧ pixel s p = pixel s (p + 1) ∧ classify s p lim = (.rep, repLen s p lim)) ∨
    (2 ≤ lim ∧ pixel s p ≠ pixel s (p + 1) ∧ classify s p lim = (.lit, litLen s p lim)) := by
  rcases hlim.eq_or_lt with hone | htwo
  · exact .inl ⟨hone.symm, classify_of_lone hone.symm⟩
  · by_cases heq : pixel s p = pixel s (p + 1)
    · exact .inr (.inl ⟨htwo, heq, classify_of_eq htwo heq⟩)
    · exact .inr (.inr ⟨htwo, heq, classify_of_ne htwo heq⟩)

/-- The chunk found under a bound: its pixels are within the bound, those of a REP all equal, no two neighbours of a LIT
equal (R121 (b), (e), (f)). -/
theorem chunk_of_classify {kind : ChunkKind} {n : Nat} (hlim : 1 ≤ lim) (hc : classify s p lim = (kind, n)) :
    1 ≤ n ∧ n ≤ lim ∧ (kind = .rep → 2 ≤ n ∧ ∀ j, j < n → pixel s (p + j) = pixel s p) ∧
    (kind = .lit → ∀ j, j + 1 < n → pixel s (p + j) ≠ pixel s (p + (j + 1))) := by
  rcases classify_cases s p hlim with ⟨-, he⟩ | ⟨htwo, heq, he⟩ | ⟨htwo, hne, he⟩ <;> cases hc.symm.trans he
  · exact ⟨le_rfl, hlim, nofun, fun _ j hj => by omega⟩
  · obtain ⟨hge, hle, -, -, hall⟩ := repRunLength s p lim htwo heq
    exact ⟨by omega, hle, fun _ => ⟨hge, hall⟩, nofun⟩
  · obtain ⟨hge, hle, hpassed, -⟩ := litRunLength s p lim htwo hne
    refine ⟨hge, hle, nofun, fun _ j hj => ?_⟩
    rcases j.eq_zero_or_pos with rfl | hpos
    · exact hne
    · exact hpassed j hpos (by omega) (by omega)

end Classify

/-- Settles O42: the first comparison decides which of the two run lengths the loop goes on with. -/
theorem classifyLoopAgrees : Obligations.ClassifyLoopAgrees := by
  intro s p lim hlim
  obtain ⟨k, rfl⟩ := Nat.exists_eq_add_of_le' hlim
  rcases classify_cases s p hlim with ⟨hone, he⟩ | ⟨htwo, heq, he⟩ | ⟨htwo, hne, he⟩ <;> rw [he, classifyLoop]
  · simp [runLoop, hone]
  · have hloop := runLoop_rep (s := s) (p := p) (n := 2) (lim := k + 1) k le_rfl (by omega)
    simpa [runLoop, repLen, heq, show 0 < k by omega] using hloop
  · have hloop := runLoop_lit (s := s) (p := p) (n := 1) (lim := k + 1) k le_rfl htwo (by omega)
    simpa [runLoop, litLen, hne, show 0 < k by omega] using hloop

/-! ### The chunk in its row -/

section Row

variable {s : State} {p : Nat} (hp : p < npix s)
include hp

theorem widthN_pos_of_lt_npix : 0 < widthN s := Nat.pos_of_mul_pos_right (Nat.zero_lt_of_lt hp)

theorem mod_lt_widthN : p % widthN s < widthN s := Nat.mod_lt _ (widthN_pos_of_lt_npix hp)

theorem one_le_chunkLimit : 1 ≤ chunkLimit s p := by
  have hcol := mod_lt_widthN hp
  unfold chunkLimit maxChunk
  omega

/-- Pixels up to the end of the row lie inside the image. -/
theorem add_le_npix_of_row {n : Nat} (hn : p % widthN s + n ≤ widthN s) : p + n ≤ npix s := by
  have hrow : p / widthN s < heightN s := Nat.div_lt_of_lt_mul hp
  calc p + n = widthN s * (p / widthN s) + (p % widthN s + n) := by rw [← Nat.add_assoc, Nat.div_add_mod]
    _ ≤ widthN s * (p / widthN s) + widthN s := Nat.add_le_add_left hn _
    _ = widthN s * (p / widthN s + 1) := (Nat.mul_succ _ _).symm
    _ ≤ npix s := Nat.mul_le_mul_left _ hrow

end Row

theorem chunkLimit_le (s : State) (p : Nat) : chunkLimit s p ≤ 128 ∧ chunkLimit s p ≤ widthN s - p % widthN s :=
  ⟨min_le_left _ _, min_le_right _ _⟩

/-- Pixels up to the end of the row lie in it. -/
theorem add_div_of_row {w p j : Nat} (hj : p % w + j < w) : (p + j) / w = p / w := by
  have hjw : j < w := by omega
  rw [Nat.add_div_eq_of_add_mod_lt (by rwa [Nat.mod_eq_of_lt hjw]), Nat.div_eq_of_lt hjw, Nat.add_zero]

/-- Settles O41: the bound ends with the row, and the run lengths tell the rest. -/
theorem chunkProperties : Obligations.ChunkProperties := by
  intro s p hp
  have hcol := mod_lt_widthN hp
  have hlim := one_le_chunkLimit hp
  obtain ⟨hmax, hrow⟩ := chunkLimit_le s p
  refine ⟨⟨hlim, hmax, hrow⟩, classify_of_lone, classify_of_eq, classify_of_ne, fun kind n hc => ?_⟩
  obtain ⟨hpos, hle, hrep, hlit⟩ := chunk_of_classify hlim hc
  exact ⟨hpos, by omega, add_le_npix_of_row hp (by omega), fun j hj => add_div_of_row (by omega), hrep, hlit⟩

/-! ### The stream as its chunks -/

section Stream

variable {s : State} {p : Nat} {cs : List (ChunkKind × Nat)} {stream : List Byte}

/-- R118: the stream's first chunk, written as `chunkBytes` writes it, and the chunks after it. -/
theorem packedFrom_cons_iff {c : ChunkKind × Nat} (hc : 1 ≤ c.2) :
    PackedFrom s p (c :: cs) stream ↔ p < npix s ∧ classify s p (chunkLimit s p) = c ∧
      p % widthN s + c.2 ≤ widthN s ∧ ∃ rest, PackedFrom s (p + c.2) cs rest ∧ stream = chunkBytes s p c ++ rest := by
  obtain ⟨kind, n⟩ := c
  have hc : 1 ≤ n := hc
  cases kind with
  | lit => simp only [PackedFrom, chunkBytes, readBytes_eq_map]
  | rep => simp only [PackedFrom, chunkBytes, readBytes_eq_map, Nat.add_sub_assoc hc]

/-- The chunk at a pixel of the image: not empty, and inside its row (R121 (b), (d)). -/
theorem chunk_in_row (hp : p < npix s) : 1 ≤ (classify s p (chunkLimit s p)).2 ∧
    p % widthN s + (classify s p (chunkLimit s p)).2 ≤ widthN s := by
  have hcol := mod_lt_widthN hp
  obtain ⟨-, hrow⟩ := chunkLimit_le s p
  obtain ⟨hpos, hle, -⟩ := chunk_of_classify (one_le_chunkLimit hp) (Prod.eta (classify s p (chunkLimit s p))).symm
  omega

/-- R113: the packer's loop, with rounds enough to reach the last pixel, writes the chunks from its pixel on. -/
theorem exists_packedFrom_packFrom (s : State) {p : Nat} (k : Nat) (hp : p ≤ npix s) (hk : npix s ≤ p + k) :
    ∃ cs, PackedFrom s p cs (packFrom s p k) := by
  induction k generalizing p with
  | zero => exact ⟨[], Nat.le_antisymm hp hk, rfl⟩
  | succ k ih =>
    rw [packFrom]
    split
    case isTrue hlt =>
      obtain ⟨hpos, hrow⟩ := chunk_in_row hlt
      obtain ⟨cs, hcs⟩ := ih (add_le_npix_of_row hlt hrow) (by omega)
      exact ⟨_ :: cs, (packedFrom_cons_iff hpos).2 ⟨hlt, rfl, hrow, _, hcs, rfl⟩⟩
    case isFalse hge => exact ⟨[], by omega, rfl⟩

/-- A chunk of the stream, inside the image, has a pixel. -/
theorem count_pos_of_packedFrom_cons {c : ChunkKind × Nat} (h : PackedFrom s p (c :: cs) stream) : 1 ≤ c.2 := by
  obtain ⟨hlt, hc, -⟩ := h
  have hpos := (chunk_in_row hlt).1
  rwa [hc] at hpos

/-- R121 (g): the counts of the chunks reach the last pixel. -/
theorem add_sum_of_packedFrom (h : PackedFrom s p cs stream) : p + (cs.map fun c => c.2).sum = npix s := by
  induction cs generalizing p stream with
  | nil => exact h.1
  | cons c cs ih =>
    obtain ⟨-, -, -, rest, hrest, -⟩ := (packedFrom_cons_iff (count_pos_of_packedFrom_cons h)).1 h
    rw [List.map_cons, List.sum_cons, ← Nat.add_assoc, ih hrest]

/-- R119: every chunk has a pixel, so there are no more chunks than pixels. -/
theorem length_le_sum_of_packedFrom (h : PackedFrom s p cs stream) : cs.length ≤ (cs.map fun c => c.2).sum := by
  induction cs generalizing p stream with
  | nil => exact le_rfl
  | cons c cs ih =>
    have hpos := count_pos_of_packedFrom_cons h
    obtain ⟨-, -, -, rest, hrest, -⟩ := (packedFrom_cons_iff hpos).1 h
    have := ih hrest
    rw [List.length_cons, List.map_cons, List.sum_cons]
    omega

/-- R122: a chunk is at most its header byte and its pixels. -/
theorem length_chunkBytes_le (s : State) (p : Nat) {c : ChunkKind × Nat} (hc : 1 ≤ c.2) :
    (chunkBytes s p c).length ≤ c.2 * bpp s + 1 := by
  obtain ⟨kind, n⟩ := c
  cases kind with
  | lit => simp [chunkBytes]
  | rep => simpa [chunkBytes] using Nat.le_mul_of_pos_left (bpp s) hc

/-- R122: the stream is at most its chunks' pixels and a header byte for each. -/
theorem length_stream_le_of_packedFrom (h : PackedFrom s p cs stream) :
    stream.length ≤ (cs.map fun c => c.2).sum * bpp s + cs.length := by
  induction cs generalizing p stream with
  | nil => simp [h.2]
  | cons c cs ih =>
    have hpos := count_pos_of_packedFrom_cons h
    obtain ⟨-, -, -, rest, hrest, rfl⟩ := (packedFrom_cons_iff hpos).1 h
    have hchunk := length_chunkBytes_le s p hpos
    have := ih hrest
    rw [List.length_append, List.map_cons, List.sum_cons, List.length_cons, Nat.add_mul]
    omega

end Stream

/-- Settles O43: the loop writes the chunks from pixel 0 on, and their counts bound how many they are and how long the
stream is. -/
theorem packedStream : Obligations.PackedStream := by
  intro s
  obtain ⟨cs, hcs⟩ := exists_packedFrom_packFrom s (npix s) (Nat.zero_le _) (Nat.zero_add _).ge
  have hsum : (cs.map fun c => c.2).sum = npix s := (Nat.zero_add _).symm.trans (add_sum_of_packedFrom hcs)
  have hcount : cs.length ≤ npix s := hsum ▸ length_le_sum_of_packedFrom hcs
  refine ⟨⟨cs, hcs, hsum, hcount⟩, ?_⟩
  calc (rlePack s).length ≤ npix s * bpp s + cs.length := hsum ▸ length_stream_le_of_packedFrom hcs
    _ ≤ len s + npix s := by rw [← len_eq_pixels]; exact Nat.add_le_add_left hcount _

end Sys2Proof.Proofs
end

