-- ==== Sys2Proof/Proofs/RawFile.lean ====
section
/-!
PROOFS. DECODE of a raw file (R138, R139): the round that stores the payload, the rounds from the dispatch to the end,
and what the command answers.
-/

namespace Sys2Proof.Proofs

open Sys2Proof Sys2Proof.Machine Sys2Proof.Safety Sys2Proof.Laws

/-! ### The raw payload -/

section Payload

variable {s : State} {t : Transfer}

/-- R138: codes 2 and 3 act alike. -/
theorem exec_rawCode (ht : s.transfer = some t) {i : Instr} (hi : i = .dtRawColor ∨ i = .dtRawGray) :
    exec i s = .next (rawPayload t s) := by
  rcases hi with rfl | rfl
  · exact execDtRawColor_some ht
  · exact execDtRawGray_some ht

/-- R139: the payload is all there. -/
theorem rawPayload_of_fits (hl : t.pos + len s ≤ s.file.length) :
    ∃ bs, inRead s.file t.pos (len s) = some bs ∧ rawPayload t s = { s with
      buf := writeBytes s.buf 0 bs
      transfer := some { t with pos := t.pos + len s, phase := .finished } } :=
  (rawPayload_cases t s).resolve_left fun hshort => hshort.1.not_ge hl

/-- R146: the payload is not all there. -/
theorem rawPayload_of_short (hl : s.file.length < t.pos + len s) : rawPayload t s = raise .image .ioError s := by
  rcases rawPayload_cases t s with ⟨-, he⟩ | ⟨bs, hr, -⟩
  · exact he
  · exact absurd (inRead_eq_some.1 hr).1 hl.not_ge

end Payload

/-- Settles O49: the bytes read are written from offset 0 on. -/
theorem rawPayloadFillsBuffer : Obligations.RawPayloadFillsBuffer := by
  intro s t i hi hm ht
  rw [exec_rawCode ht hi]
  constructor
  · intro hl
    obtain ⟨bs, hr, he⟩ := rawPayload_of_fits hl
    refine ⟨_, congrArg _ he, fun a => ?_⟩
    rw [readByte_writeBytes hm, length_of_inRead hr, Nat.zero_add, Nat.sub_zero]
    by_cases ha : a < len s
    · rw [if_pos ⟨Nat.zero_le a, ha⟩, if_pos ha]
      exact getD_of_inRead hr a ha _
    · rw [if_neg fun h => ha h.2, if_neg ha]
  · intro hl
    exact ⟨_, _, _, _, _, congrArg _ (rawPayload_of_short hl)⟩

/-! ### From the dispatch to the end -/

/-- R138, R139: a DECODE whose header names a raw payload reads it in one round. -/
theorem transferRound_of_rawCode {s : State} {t : Transfer} (hp : t.phase = .dataType)
    (hd : t.header.dataType.toNat = 2 ∨ t.header.dataType.toNat = 3) :
    transferRound t s = .next (rawPayload t s) := by
  have hcode : t.header.dataType = 0x02#8 ∨ t.header.dataType = 0x03#8 :=
    hd.imp BitVec.eq_of_toNat_eq BitVec.eq_of_toNat_eq
  rcases hcode with hcode | hcode <;> simp only [transferRound, fetchStream, hp, hcode, decode] <;> rfl

/-- R139, R149: from the dispatch to the end, where the payload is all there. -/
theorem rounds_of_rawPayload {s : State} {t : Transfer} (ht : s.transfer = some t) (hp : t.phase = .dataType)
    (hcode : t.header.dataType.toNat = 2 ∨ t.header.dataType.toNat = 3) (hl : t.pos + len s ≤ s.file.length) :
    ∃ u bs, u.header = t.header ∧ inRead s.file t.pos (len s) = some bs ∧
      Rounds s (finishDecode u { s with buf := writeBytes s.buf 0 bs, transfer := some u }) := by
  obtain ⟨bs, hr, he⟩ := rawPayload_of_fits hl
  exact ⟨_, bs, rfl, hr, .head ht ((transferRound_of_rawCode hp hcode).trans (congrArg _ he)) (rounds_single rfl rfl)⟩

/-- R12, R17: the sizes of the image that DECODE constructs, from the header of its file. -/
theorem derived_beginTransfer_hdrUnpack (s : State) (file : List Byte) :
    bpp (beginTransfer (hdrUnpack file) s) = fileFormat file ∧
    npix (beginTransfer (hdrUnpack file) s) = filePixels file ∧
    len (beginTransfer (hdrUnpack file) s) = (fileHeight file).toNat * (fileWidth file).toNat * fileFormat file := by
  obtain ⟨hw, hh, hf⟩ := geometry_beginTransfer_hdrUnpack s file
  simp only [npix, len, heightN, widthN, bpp, hw, hh, hf, filePixels, and_self]

/-- R139: a byte of the payload, by its place in the file. -/
theorem getD_rawPayload {file bs : List Byte} {h w y k : Nat} (hr : inRead file hdrLen (h * w) = some bs) (hy : y < h)
    (hk : k < w) : bs.getD (y * w + k) 0#8 = file.getD (18 + y * w + k) 0#8 := by
  have hlt : y * w + k < h * w := calc
    y * w + k < (y + 1) * w := by rw [Nat.succ_mul]; omega
    _ ≤ h * w := Nat.mul_le_mul_right w hy
  rw [getD_of_inRead hr _ hlt, hdrLen, Nat.add_assoc]

/-- Settles O53: two rounds lead from the dispatch to the slot filled with the payload, and DECODE answers the state
its rounds lead to. -/
theorem decodeRawFile : Obligations.DecodeRawFile := by
  intro s hio ha hcode hl
  obtain ⟨-, -, hlen⟩ := derived_beginTransfer_hdrUnpack s s.file
  obtain ⟨u, bs, hu, hr, hrounds⟩ := rounds_of_rawPayload (beginTransfer_transfer s (hdrUnpack s.file)) rfl hcode
    (by rw [hlen]; exact hl)
  have hu : u.header = hdrUnpack s.file := hu
  have hx : execDecode s = .next (finishDecode u (filledSlot bs u s)) := by
    rw [filledSlot, hu]
    exact execDecode_of_rounds (openDecode_of_accepted ha hio) hrounds rfl
  have hbs : bs.length = len (filledSlot bs u s) := by
    rw [length_of_inRead hr, filledSlot, hu]
    rfl
  obtain ⟨w, h, f, m, he, hwf, hhf, hff, hrows⟩ := finishDecode_filledSlot hu hbs
  refine ⟨w, h, f, m, hx.trans (congrArg _ he), hwf, hhf, hff, fun y k hy hk => (hrows y k hy hk).trans ?_⟩
  rw [hlen, Nat.mul_assoc] at hr
  exact getD_rawPayload hr (by split <;> omega) hk

end Sys2Proof.Proofs
end

