-- ==== Sys2Proof/Proofs/RoundTrip.lean ====
section
/-!
PROOFS. Encoding an image and decoding the file gives the image back (R151, R152). The layers, in order: the header of
an encoded file, as DECODE reads it; an image is its geometry and its rows; what restores it; the raw file; the
packer's chunks as chunks of a stream; the RLE file.
-/

namespace Sys2Proof.Proofs

open Sys2Proof Sys2Proof.Machine Sys2Proof.Safety Sys2Proof.Laws

/-! ### The header of an encoded file -/

theorem hdrUnpack_encodedFile (rle : Bool) (s : State) : hdrUnpack (encodedFile rle s) = buildHeader rle s := by
  rw [← hdrUnpack_take, hdrLen, take_encodedFile, hdrUnpack_hdrPack]

/-- R107: a size that passed ENCODE's test keeps its value in 16 bits. -/
theorem toInt_setWidth_size {w : Word} (hpos : 0 < w.toInt) (hle : w.toInt ≤ 32767) :
    (w.setWidth 16).toInt = w.toInt := by
  have hnat := toNat_toInt_of_nonneg hpos.le
  rw [BitVec.toInt_setWidth, ← hnat, Int.toNat_of_nonneg hpos.le]
  exact Int.bmod_eq_of_le (by omega) (by omega)

/-- R60, R108: the bits per pixel that ENCODE writes are eight times the format code that DECODE derives from them. -/
theorem toNat_headerFormat_buildHeader (rle : Bool) {s : State} (hf : FormatCode (bpp s)) :
    (headerFormat (buildHeader rle s)).toNat = bpp s := by
  have hbits : (buildHeader rle s).bitsPerPixel = BitVec.ofNat 8 (bpp s * 8) := rfl
  rw [headerFormat, hbits]
  rcases hf with hf | hf | hf <;> rw [hf] <;> rfl

section Encoded

variable (rle : Bool) {s : State}

theorem fileWidth_encodedFile (hpos : 0 < s.width.toInt) (hle : s.width.toInt ≤ 32767) :
    fileWidth (encodedFile rle s) = s.width.toInt :=
  (congrArg (fun h => h.width.toInt) (hdrUnpack_encodedFile rle s)).trans (toInt_setWidth_size hpos hle)

theorem fileHeight_encodedFile (hpos : 0 < s.height.toInt) (hle : s.height.toInt ≤ 32767) :
    fileHeight (encodedFile rle s) = s.height.toInt :=
  (congrArg (fun h => h.height.toInt) (hdrUnpack_encodedFile rle s)).trans (toInt_setWidth_size hpos hle)

theorem fileFormat_encodedFile (hf : FormatCode (bpp s)) : fileFormat (encodedFile rle s) = bpp s := by
  rw [← toNat_headerFormat, hdrUnpack_encodedFile, toNat_headerFormat_buildHeader rle hf]

/-- R109: the data-type code ENCODE writes names the payload it writes. -/
theorem dataType_encodedFile (s : State) : ((encodedFile rle s).getD 2 0#8).toNat =
    if bpp s = 1 then (if rle then 11 else 3) else (if rle then 10 else 2) := by
  have hcode : (encodedFile rle s).getD 2 0#8 = dataTypeOf s.format rle :=
    congrArg Header.dataType (hdrUnpack_encodedFile rle s)
  rw [hcode, dataTypeOf_format]
  cases rle <;> split <;> rfl

/-- R110: ENCODE writes the rows from the top on. -/
theorem topLeft_encodedFile (s : State) : ((encodedFile rle s).getD 17 0#8).getLsbD 5 = true := by
  have hdesc : (encodedFile rle s).getD 17 0#8 = descriptorOf s.format :=
    congrArg Header.descriptor (hdrUnpack_encodedFile rle s)
  rw [hdesc, descriptorOf_format]
  split <;> rfl

/-- R135 to R137: DECODE accepts the header ENCODE writes for an image, under the capacity the image fits. -/
theorem fileAccepted_encodedFile (hi : ImageOk s) (hw : s.width.toInt ≤ 32767) (hh : s.height.toInt ≤ 32767) :
    fileAccepted s.cfg.bufCap (encodedFile rle s) := by
  obtain ⟨hwpos, hhpos, hf, hcap, -⟩ := hi
  unfold fileAccepted
  rw [fileWidth_encodedFile rle hwpos hw, fileHeight_encodedFile rle hhpos hh, fileFormat_encodedFile rle hf]
  refine ⟨by rw [length_encodedFile]; exact Nat.le_add_right 18 _, hf, hwpos, hhpos, ?_⟩
  have hcap : ((heightN s * widthN s * bpp s : Nat) : Int) ≤ s.cfg.bufCap := Int.ofNat_le.2 hcap
  rw [heightN, widthN] at hcap
  push_cast at hcap
  rwa [Int.toNat_of_nonneg hhpos.le, Int.toNat_of_nonneg hwpos.le] at hcap

end Encoded

/-! ### An image is its geometry and its rows -/

/-- An offset past every listed byte reads as unlisted. -/
theorem readByte_of_mem_lt {m : Memory} {n a : Nat} (hm : ∀ c ∈ m, c.1 < n) (ha : n ≤ a) : readByte m a = unlisted := by
  by_contra hne
  exact (hm _ (mem_of_readByte hne)).not_ge ha

/-- Two sound states whose valid images have one geometry and the same rows hold the same image. -/
theorem image_eq_of_rows {s v : State} (hs : Inv s) (hsv : s.valid = true) (hv : Inv v) (hvv : v.valid = true)
    (hw : v.width.toInt = s.width.toInt) (hh : v.height.toInt = s.height.toInt) (hf : v.format.toNat = bpp s)
    (hrows : ∀ y k, y < heightN s → k < bpr s → readByte v.buf (y * bpr s + k) = readByte s.buf (y * bpr s + k)) :
    v.width = s.width ∧ v.height = s.height ∧ v.format = s.format ∧ v.buf = s.buf := by
  have hw := BitVec.eq_of_toInt_eq hw
  have hh := BitVec.eq_of_toInt_eq hh
  have hf := BitVec.eq_of_toNat_eq hf
  obtain ⟨-, -, -, -, hlen, -⟩ := derived_congr hw hh hf
  obtain ⟨hsm, hsin⟩ := buf_of_inv hs hsv
  obtain ⟨hvm, hvin⟩ := buf_of_inv hv hvv
  refine ⟨hw, hh, hf, memory_ext_rows s hvm hsm hrows fun a ha => ?_⟩
  rw [readByte_of_mem_lt hvin (hlen ▸ ha), readByte_of_mem_lt hsin ha]

/-- DECODE leaves a sound state, whatever it finds, in a block whose capacity is in range. -/
theorem inv_of_execDecode {u v : State} (hc : u.cfg.Ok) (hx : execDecode u = .next v) : Inv v := by
  obtain ⟨v', hv', hrounds, -⟩ := execDecode_answers u
  cases hx.symm.trans hv'
  exact hrounds.keeps (fun _ _ _ ht hr h => transferRound_keeps_inv h ht hr) (inv_openDecode hc)

/-! ### What restores an image -/

/-- What O53 and O54 say of a DECODE that succeeds: the geometry is the header's, and the rows of the buffer are those
of the pixel bytes `px`, in the order the descriptor tells (R148, R149). -/
def DecodesRows (u : State) (px : Nat → Byte) : Prop :=
  ∃ w h f m, execDecode u = .next { u with
      valid := true, width := w, height := h, format := f, buf := m, status := .ok, transfer := none } ∧
    w.toInt = fileWidth u.file ∧ h.toInt = fileHeight u.file ∧ f.toNat = fileFormat u.file ∧
    ∀ y k, y < (fileHeight u.file).toNat → k < (fileWidth u.file).toNat * fileFormat u.file →
      readByte m (y * ((fileWidth u.file).toNat * fileFormat u.file) + k) =
        px ((if (u.file.getD 17 0#8).getLsbD 5 then y else (fileHeight u.file).toNat - 1 - y) *
          ((fileWidth u.file).toNat * fileFormat u.file) + k)

section Restore

variable {rle : Bool} {s u : State} (hs : Inv s) (hsv : s.valid = true) (hw : s.width.toInt ≤ 32767)
  (hh : s.height.toInt ≤ 32767) (hc : u.cfg = s.cfg) (hfile : u.file = encodedFile rle s)
include hs hsv hw hh hc hfile

/-- The geometry in the header of the file, and that DECODE accepts it. -/
theorem header_of_encoded : fileAccepted u.cfg.bufCap u.file ∧ fileWidth u.file = s.width.toInt ∧
    fileHeight u.file = s.height.toInt ∧ fileFormat u.file = bpp s := by
  obtain ⟨-, -, hi, -⟩ := hs
  have ⟨hwpos, hhpos, hf, _, _⟩ := hi hsv
  rw [hc, hfile]
  exact ⟨fileAccepted_encodedFile rle (hi hsv) hw hh, fileWidth_encodedFile rle hwpos hw,
    fileHeight_encodedFile rle hhpos hh, fileFormat_encodedFile rle hf⟩

/-- R151, R152: a DECODE of the encoded file restores the image if the pixel bytes it stores are the image's. -/
theorem restores_of_decodesRows {px : Nat → Byte} (hx : DecodesRows u px)
    (hpx : ∀ a < len s, px a = readByte s.buf a) :
    ∃ v, execDecode u = .next v ∧ v.status = .ok ∧ v.valid = true ∧ v.width = s.width ∧ v.height = s.height ∧
      v.format = s.format ∧ v.buf = s.buf := by
  obtain ⟨w, h, f, m, hx, hwf, hhf, hff, hrows⟩ := hx
  obtain ⟨-, hgw, hgh, hgf⟩ := header_of_encoded hs hsv hw hh hc hfile
  have htop : (u.file.getD 17 0#8).getLsbD 5 = true := hfile ▸ topLeft_encodedFile rle s
  simp only [hgw, hgh, hgf, htop, if_true] at hwf hhf hff hrows
  have hv := inv_of_execDecode (hc ▸ hs.1) hx
  exact ⟨_, hx, rfl, rfl, image_eq_of_rows hs hsv hv rfl hwf hhf hff fun y k hy hk =>
    (hrows y k hy hk).trans (hpx _ (row_lt_len hy hk))⟩

end Restore

/-! ### The raw file -/

/-- R112: byte `a` of the image in its raw file. -/
theorem getD_encodedFile_raw {s : State} {a : Nat} (ha : a < len s) :
    (encodedFile false s).getD (18 + a) 0#8 = readByte s.buf a := by
  rw [List.getD_eq_getElem?_getD, ← List.getElem?_drop, drop_encodedFile, getElem?_payload_raw ha]
  rfl

/-- R112: the raw file ends with the image. -/
theorem length_encodedFile_raw (s : State) : (encodedFile false s).length = 18 + len s :=
  (length_encodedFile false s).trans (congrArg (18 + ·) (length_readBytes s.buf 0 (len s)))

/-- Settles O58: DECODE of the raw file stores the payload, which is the buffer. -/
theorem roundTripRaw : Obligations.RoundTripRaw := by
  intro s hs hv hw hh hio
  refine ⟨_, execEncode_of_fits hv hw hh hio false, fun u hc hfile hio' => ?_⟩
  obtain ⟨hacc, hgw, hgh, hgf⟩ := header_of_encoded hs hv hw hh hc hfile
  have hcode : (u.file.getD 2 0#8).toNat = 2 ∨ (u.file.getD 2 0#8).toNat = 3 := by
    rw [hfile, dataType_encodedFile]
    split <;> simp
  have hlen : 18 + (fileHeight u.file).toNat * (fileWidth u.file).toNat * fileFormat u.file ≤ u.file.length := by
    rw [hgw, hgh, hgf, hfile, length_encodedFile_raw]
    exact le_rfl
  obtain ⟨w, h, f, m, hx, hwf, hhf, hff, hrows⟩ := decodeRawFile u hio' hacc hcode hlen
  have hdec : DecodesRows u fun a => u.file.getD (18 + a) 0#8 :=
    ⟨w, h, f, m, hx, hwf, hhf, hff, fun y k hy hk => (hrows y k hy hk).trans (by rw [Nat.add_assoc])⟩
  exact restores_of_decodesRows hs hv hw hh hc hfile hdec fun a ha => hfile ▸ getD_encodedFile_raw ha

/-! ### The packer's chunks as chunks of a stream -/

/-- The chunk of a stream that the packer writes for the chunk `c` found at pixel `p` (R118). -/
def toStreamChunk (s : State) (p : Nat) (c : ChunkKind × Nat) : StreamChunk :=
  (c.1, c.2, match c.1 with
    | .lit => readBytes s.buf (p * bpp s) (c.2 * bpp s)
    | .rep => pixel s p)

theorem streamChunkOk_toStreamChunk (s : State) (p : Nat) {c : ChunkKind × Nat} (hc : ChunkCount c.2) :
    streamChunkOk (bpp s) (toStreamChunk s p c) := by
  obtain ⟨kind, n⟩ := c
  cases kind with
  | lit => exact ⟨hc, length_readBytes _ _ _⟩
  | rep => exact ⟨hc, length_readBytes _ _ _⟩

theorem streamChunkBytes_toStreamChunk (s : State) (p : Nat) {c : ChunkKind × Nat} (hc : 1 ≤ c.2) :
    streamChunkBytes (toStreamChunk s p c) = chunkBytes s p c := by
  obtain ⟨kind, n⟩ := c
  cases kind with
  | lit => rfl
  | rep => rw [chunkBytes, Nat.add_sub_assoc hc]; rfl

/-- A run of equal pixels is its first pixel repeated. -/
theorem flatten_replicate_pixel {s : State} {p n : Nat} (h : ∀ j, j < n → pixel s (p + j) = pixel s p) :
    (List.replicate n (pixel s p)).flatten = readBytes s.buf (p * bpp s) (n * bpp s) := by
  induction n with
  | zero => rw [Nat.zero_mul]; rfl
  | succ n ih =>
    have hlast : readBytes s.buf (p * bpp s + n * bpp s) (bpp s) = pixel s p := by
      rw [← Nat.add_mul]
      exact h n n.lt_succ_self
    rw [List.replicate_succ', List.flatten_append, ih fun j hj => h j (by omega), Nat.succ_mul, readBytes_add, hlast,
      List.flatten_singleton]

/-- R118, R143, R144: the pixels that the packer's chunk stands for are those it was found at. -/
theorem streamChunkPixels_toStreamChunk {s : State} {p : Nat} {c : ChunkKind × Nat}
    (hrep : c.1 = .rep → ∀ j, j < c.2 → pixel s (p + j) = pixel s p) :
    streamChunkPixels (toStreamChunk s p c) = readBytes s.buf (p * bpp s) (c.2 * bpp s) := by
  obtain ⟨kind, n⟩ := c
  cases kind with
  | lit => rfl
  | rep => exact flatten_replicate_pixel (hrep rfl)

/-- R113, R118: what the packer writes from pixel `p` on is a stream of chunks, as DECODE reads it, that stands for the
pixels from `p` to the last. -/
theorem exists_streamChunks_of_packedFrom {s : State} {p : Nat} {cs : List (ChunkKind × Nat)} {stream : List Byte}
    (h : PackedFrom s p cs stream) : ∃ ds : List StreamChunk, (∀ d ∈ ds, streamChunkOk (bpp s) d) ∧
      p + (ds.map fun d => d.2.1).sum = npix s ∧ stream = (ds.map streamChunkBytes).flatten ∧
      (ds.map streamChunkPixels).flatten = readBytes s.buf (p * bpp s) ((ds.map fun d => d.2.1).sum * bpp s) := by
  induction cs generalizing p stream with
  | nil =>
    obtain ⟨hp, rfl⟩ := h
    exact ⟨[], nofun, hp, rfl, by simp [readBytes]⟩
  | cons c cs ih =>
    have hpos := count_pos_of_packedFrom_cons h
    obtain ⟨hp, hc, -, rest, hrest, rfl⟩ := (packedFrom_cons_iff hpos).1 h
    obtain ⟨-, hle, hrep, -⟩ := chunk_of_classify (one_le_chunkLimit hp) hc
    have hmax := (chunkLimit_le s p).1
    obtain ⟨ds, hok, hsum, rfl, hpixels⟩ := ih hrest
    refine ⟨toStreamChunk s p c :: ds, List.forall_mem_cons.2 ⟨?_, hok⟩, ?_, ?_, ?_⟩
    · exact streamChunkOk_toStreamChunk s p ⟨hpos, by omega⟩
    · rw [List.map_cons, List.sum_cons, ← Nat.add_assoc]
      exact hsum
    · rw [List.map_cons, List.flatten_cons, streamChunkBytes_toStreamChunk s p hpos]
    · rw [List.map_cons, List.flatten_cons, streamChunkPixels_toStreamChunk fun hk => (hrep hk).2, hpixels,
        List.map_cons, List.sum_cons, Nat.add_mul, Nat.add_mul, ← readBytes_add]
      rfl

/-! ### The RLE file -/

/-- R112, R113: the stream ENCODE writes stands for the whole buffer. -/
theorem exists_streamChunks_rlePack (s : State) : ∃ ds : List StreamChunk, (∀ d ∈ ds, streamChunkOk (bpp s) d) ∧
    (ds.map fun d => d.2.1).sum = npix s ∧ rlePack s = (ds.map streamChunkBytes).flatten ∧
    (ds.map streamChunkPixels).flatten = readBytes s.buf 0 (len s) := by
  obtain ⟨⟨cs, hcs, -, -⟩, -⟩ := packedStream s
  obtain ⟨ds, hok, hsum, hbytes, hpixels⟩ := exists_streamChunks_of_packedFrom hcs
  rw [Nat.zero_add] at hsum
  rw [Nat.zero_mul, hsum, ← len_eq_pixels] at hpixels
  exact ⟨ds, hok, hsum, hbytes, hpixels⟩

/-- Settles O59: the stream is chunks that stand for the buffer, whatever its pixels, and DECODE stores what the chunks
stand for. -/
theorem roundTripRle : Obligations.RoundTripRle := by
  intro s hs hv hw hh hio
  refine ⟨_, execEncode_of_fits hv hw hh hio true, fun u hc hfile hio' => ?_⟩
  obtain ⟨hacc, hgw, hgh, hgf⟩ := header_of_encoded hs hv hw hh hc hfile
  obtain ⟨ds, hok, hsum, hbytes, hpixels⟩ := exists_streamChunks_rlePack s
  have hcode : (u.file.getD 2 0#8).toNat = 10 ∨ (u.file.getD 2 0#8).toNat = 11 := by
    rw [hfile, dataType_encodedFile]
    split <;> simp
  have hcount : (ds.map fun d => d.2.1).sum = filePixels u.file := by
    rw [hsum, filePixels, hgw, hgh]
    rfl
  have hstream : u.file.drop 18 = (ds.map streamChunkBytes).flatten ++ [] := by
    rw [hfile, drop_encodedFile, List.append_nil, ← hbytes]
    rfl
  have hdec : DecodesRows u fun a => (ds.map streamChunkPixels).flatten.getD a 0#8 :=
    decodeRleFile u ds [] hio' hacc hcode (hgf ▸ hok) hcount hstream
  refine restores_of_decodesRows hs hv hw hh hc hfile hdec fun a ha => ?_
  have hlt : a < (readBytes s.buf 0 (len s)).length := by rwa [length_readBytes]
  rw [hpixels, List.getD_eq_getElem _ _ hlt, getElem_readBytes, Nat.zero_add]

end Sys2Proof.Proofs
end

