-- ==== Sys2Proof/Proofs/DecodeTests.lean ====
section
/-!
PROOFS. The instructions of a stream that fail or only move the locals, and DECODE's tests in their order (R170). The
layers, in order: the stream's instructions; the tests on the header; the rounds up to an error; the errors past
the header of a file that DECODE accepts; the obligations.
-/

namespace Sys2Proof.Proofs

open Sys2Proof Sys2Proof.Machine Sys2Proof.Safety Sys2Proof.Laws

/-! ### The stream's instructions -/

/-- Settles O3: the header byte's upper half is REP, its lower seven bits are the count less one. -/
theorem everyByteIsAChunkHeader : Obligations.EveryByteIsAChunkHeader := by
  intro h
  have hlt := h.isLt
  simp only [decode, decodeChunk_eq]
  constructor
  · intro hlit
    rw [if_pos hlit, Nat.mod_eq_of_lt hlit]
  · intro hrep
    rw [if_neg hrep.not_gt, show h.toNat % 128 + 1 = h.toNat - 127 by omega]

/-- R138: with the dispatch next, a step runs the header's data-type code. -/
theorem step_of_dataType {s : State} {t : Transfer} (ht : s.transfer = some t) (hp : t.phase = .dataType) {i : Instr}
    (hd : decode (.dataType t.header.dataType) = .instr i) : step s = mapNext settle (exec i s) := by
  have hfetch : fetchStream t s = .run i t := by simp only [fetchStream, hp, hd]
  have hs : { s with transfer := some t } = s := by rw [← ht]
  simp only [step, ht, hfetch, hs]

/-- Settles O7, by what the fetch finds in either phase. -/
theorem stepRunsStreamInstruction : Obligations.StepRunsStreamInstruction := by
  intro s t i ht
  refine ⟨fun hp hd => step_of_dataType ht hp hd, fun hp hc h hh hd => ?_⟩
  cases hd
  exact step_of_chunk ht hp hc hh

/-- R142: the overrun test comes before the stream is read. -/
theorem exec_chunk_of_overrun {s : State} {t : Transfer} (ht : s.transfer = some t) {n : Nat} {i : Instr}
    (hi : i = .lit n ∨ i = .rep n) (hn : npix s < t.count + n) :
    exec i s = .next (raise .image .overrunError s) := by
  rcases hi with rfl | rfl
  · exact (execLit_some ht n).trans (congrArg _ (if_pos hn))
  · exact (execRep_some ht n).trans (congrArg _ (if_pos hn))

/-- Settles O47. -/
theorem overrunStopsDecode : Obligations.OverrunStopsDecode :=
  fun _ _ _ _ hi ht hn => ⟨_, _, _, _, _, exec_chunk_of_overrun ht hi hn⟩

/-- Settles O50. -/
theorem rleCodesStartChunkLoop : Obligations.RleCodesStartChunkLoop := by
  intro s t i hi ht
  rcases hi with rfl | rfl
  · exact execDtRleColor_some ht
  · exact execDtRleGray_some ht

/-! ### The tests on the header -/

/-- DECODE fails where its rounds lead to an error. -/
theorem decodeFails_of_rounds {s s₀ u : State} {e : Status} (ho : openDecode s = s₀)
    (h : Rounds s₀ (raise .image e u)) : DecodeFails s e :=
  ⟨_, execDecode_of_rounds ho h rfl, rfl, rfl⟩

/-- DECODE fails where its opening does. -/
theorem decodeFails_of_openDecode {s : State} {e : Status} (ho : openDecode s = raise .image e s) : DecodeFails s e :=
  decodeFails_of_rounds ho (.refl _)

/-- R130. -/
theorem openDecode_of_ioFail {s : State} (hio : s.ioFail = true) : openDecode s = raise .image .ioError s := if_pos hio

/-- R132. -/
theorem openDecode_of_shortHeader {s : State} (hio : s.ioFail = false) (hl : s.file.length < 18) :
    openDecode s = raise .image .ioError s := by
  have hread : inRead s.file 0 hdrLen = none := inRead_eq_none.2 (by rw [Nat.zero_add]; exact hl)
  simp [openDecode, hio, hread]

/-- R135 to R137: a header that fails a test. -/
theorem openDecode_of_error {s : State} (hio : s.ioFail = false) (hl : 18 ≤ s.file.length) {e : Status}
    (he : headerStatus s.cfg (hdrUnpack s.file) = e) (hne : e ≠ .ok) : openDecode s = raise .image e s := by
  have hread : inRead s.file 0 hdrLen = some (s.file.take hdrLen) :=
    inRead_eq_some.2 ⟨by rw [Nat.zero_add]; exact hl, rfl⟩
  simp [openDecode, hio, hread, hdrUnpack_take, he, hne]

/-- R135 to R137: the tests in terms of the file. -/
theorem headerStatus_hdrUnpack (c : Config) (file : List Byte) : headerStatus c (hdrUnpack file) =
    if ¬ FormatCode (fileFormat file) then .unsupportedFormat
    else if fileWidth file ≤ 0 ∨ fileHeight file ≤ 0 then .invalidDimensions
    else if c.bufCap < (fileHeight file).toNat * (fileWidth file).toNat * fileFormat file then .capacityExceeded
    else .ok := by
  rw [← toNat_headerFormat]
  rfl

section HeaderTests

variable {c : Config} {file : List Byte}

theorem headerStatus_of_badFormat (hf : ¬ FormatCode (fileFormat file)) :
    headerStatus c (hdrUnpack file) = .unsupportedFormat := by
  rw [headerStatus_hdrUnpack, if_pos hf]

theorem headerStatus_of_badSize (hf : FormatCode (fileFormat file)) (hd : fileWidth file ≤ 0 ∨ fileHeight file ≤ 0) :
    headerStatus c (hdrUnpack file) = .invalidDimensions := by
  rw [headerStatus_hdrUnpack, if_neg (not_not.2 hf), if_pos hd]

theorem headerStatus_of_tooLarge (hf : FormatCode (fileFormat file)) (hw : 0 < fileWidth file)
    (hh : 0 < fileHeight file)
    (hc : (c.bufCap : Int) < fileHeight file * fileWidth file * (fileFormat file : Int)) :
    headerStatus c (hdrUnpack file) = .capacityExceeded := by
  have hsize : c.bufCap < (fileHeight file).toNat * (fileWidth file).toNat * fileFormat file := by
    zify
    rwa [Int.toNat_of_nonneg hw.le, Int.toNat_of_nonneg hh.le]
  rw [headerStatus_hdrUnpack, if_neg (not_not.2 hf), if_neg (by omega), if_pos hsize]

end HeaderTests

/-! ### The rounds up to an error -/

section RoundErrors

variable {s : State} {t : Transfer}

/-- R138: a data-type code that is none of the four. -/
theorem transferRound_of_badCode (hp : t.phase = .dataType) (hd : t.header.dataType.toNat ∉ [2, 3, 10, 11]) :
    transferRound t s = .next (raise .image .unsupportedDataType s) := by
  have hne : ∀ b : Byte, b.toNat ∈ [2, 3, 10, 11] → t.header.dataType ≠ b := fun b hb h => hd (h ▸ hb)
  simp only [transferRound, fetchStream, hp, decode, decodeDataType, hne 0x02#8 (by decide), hne 0x03#8 (by decide),
    hne 0x0A#8 (by decide), hne 0x0B#8 (by decide), if_false]

/-- R139, R146: a raw payload that is not all there. -/
theorem transferRound_of_shortRaw (hp : t.phase = .dataType)
    (hd : t.header.dataType.toNat = 2 ∨ t.header.dataType.toNat = 3) (hl : s.file.length < t.pos + len s) :
    transferRound t s = .next (raise .image .ioError s) :=
  (transferRound_of_rawCode hp hd).trans (congrArg _ (rawPayload_of_short hl))

/-- R140: a DECODE that enters the chunk loop passes the whole chunks `cs`, and what follows them in the stream stands
at the cursor. -/
theorem exists_rounds_past_chunks (ht : s.transfer = some t) (hp : t.phase = .dataType)
    (hcode : t.header.dataType.toNat = 10 ∨ t.header.dataType.toNat = 11) {cs : List StreamChunk} {rest : List Byte}
    (hcs : ∀ c ∈ cs, streamChunkOk (bpp s) c) (hn : (cs.map fun c => c.2.1).sum ≤ npix s)
    (hd : s.file.drop t.pos = (cs.map streamChunkBytes).flatten ++ rest) :
    ∃ a u, Rounds s a ∧ a.transfer = some u ∧ u.phase = .chunks ∧ u.count = (cs.map fun c => c.2.1).sum ∧
      npix a = npix s ∧ bpp a = bpp s ∧ a.file.drop u.pos = rest := by
  have hstart : Rounds s (rlePayload t s) := rounds_single ht (transferRound_of_rleCode hp hcode)
  have hloop : Rounds (rlePayload t s) (afterChunks cs (enterLoop t) (rlePayload t s)) :=
    rounds_of_streamChunks rfl rfl hcs ((Nat.zero_add _).trans_le hn) hd
  refine ⟨_, _, rounds_trans hstart hloop, rfl, rfl, Nat.zero_add _, rfl, rfl, ?_⟩
  exact List.drop_drop.symm.trans ((congrArg _ hd).trans List.drop_left)

variable (hp : t.phase = .chunks) (hc : t.count < npix s)
include hp hc

/-- R140, R146: pixels are missing and no header byte is left. -/
theorem transferRound_of_missingHeader (hl : s.file.length ≤ t.pos) :
    transferRound t s = .next (raise .image .ioError s) := by
  have hread : inRead s.file t.pos 1 = none := inRead_eq_none.2 (by omega)
  simp only [transferRound, fetchStream, hp, hc, if_true, hread]

variable {h : Byte} {rest : List Byte} (hd : s.file.drop t.pos = h :: rest)
include hd

/-- R142: the chunk at the cursor would pass the last pixel. -/
theorem transferRound_of_overrun (hn : npix s < t.count + (h.toNat % 128 + 1)) :
    ∃ u, transferRound t s = .next (raise .image .overrunError u) := by
  have hi : decodeChunk h = .lit (h.toNat % 128 + 1) ∨ decodeChunk h = .rep (h.toNat % 128 + 1) := by
    rw [decodeChunk_eq]
    split
    · exact .inl rfl
    · exact .inr rfl
  rw [transferRound_of_chunk hp hc hd]
  exact ⟨_, exec_chunk_of_overrun (s := { s with transfer := some { t with pos := t.pos + 1 } }) rfl hi hn⟩

/-- R146: the chunk at the cursor is cut short. -/
theorem transferRound_of_shortChunk (hn : t.count + (h.toNat % 128 + 1) ≤ npix s)
    (hl : s.file.length < t.pos + chunkSize (bpp s) h) : ∃ u, transferRound t s = .next (raise .image .ioError u) := by
  rw [transferRound_of_chunk hp hc hd, decodeChunk_eq]
  by_cases hlit : h.toNat < 128
  · rw [chunkSize, if_pos hlit, ← Nat.add_assoc] at hl
    rw [if_pos hlit]
    rw [Nat.mod_eq_of_lt hlit] at hn ⊢
    exact ⟨_, exec_lit_of_short (s := { s with transfer := some { t with pos := t.pos + 1 } }) rfl hn hl⟩
  · rw [chunkSize, if_neg hlit, ← Nat.add_assoc] at hl
    rw [if_neg hlit]
    exact ⟨_, exec_rep_of_short (s := { s with transfer := some { t with pos := t.pos + 1 } }) rfl hn hl⟩

end RoundErrors

/-! ### The rounds of a file that DECODE accepts -/

section Accepted

variable {s : State} (hio : s.ioFail = false) (ha : fileAccepted s.cfg.bufCap s.file)
include hio ha

/-- R138, R170: the data-type code is tested after the header. -/
theorem decodeFails_of_badCode (hcode : (s.file.getD 2 0#8).toNat ∉ [2, 3, 10, 11]) :
    DecodeFails s .unsupportedDataType :=
  decodeFails_of_rounds (openDecode_of_accepted ha hio)
    (rounds_single (beginTransfer_transfer _ _) (transferRound_of_badCode rfl hcode))

/-- R139, R146, R170: then the raw payload is read. -/
theorem decodeFails_of_shortRaw (hcode : (s.file.getD 2 0#8).toNat = 2 ∨ (s.file.getD 2 0#8).toNat = 3)
    (hl : s.file.length < 18 + (fileHeight s.file).toNat * (fileWidth s.file).toNat * fileFormat s.file) :
    DecodeFails s .ioError := by
  obtain ⟨-, -, hlen⟩ := derived_beginTransfer_hdrUnpack s s.file
  have hshort : s.file.length < hdrLen + len (beginTransfer (hdrUnpack s.file) s) := by
    rw [hlen]
    exact hl
  exact decodeFails_of_rounds (openDecode_of_accepted ha hio)
    (rounds_single (beginTransfer_transfer _ _) (transferRound_of_shortRaw rfl hcode hshort))

/-- R140: in an RLE payload the chunks are read one after the other. -/
theorem exists_rounds_to_chunk (hcode : (s.file.getD 2 0#8).toNat = 10 ∨ (s.file.getD 2 0#8).toNat = 11)
    {cs : List StreamChunk} {rest : List Byte} (hcs : ∀ c ∈ cs, streamChunkOk (fileFormat s.file) c)
    (hn : (cs.map fun c => c.2.1).sum ≤ filePixels s.file)
    (hd : s.file.drop 18 = (cs.map streamChunkBytes).flatten ++ rest) :
    ∃ a u, Rounds (openDecode s) a ∧ a.transfer = some u ∧ u.phase = .chunks ∧ u.count = (cs.map fun c => c.2.1).sum ∧
      npix a = filePixels s.file ∧ bpp a = fileFormat s.file ∧ a.file.drop u.pos = rest := by
  obtain ⟨hbpp, hnpix, -⟩ := derived_beginTransfer_hdrUnpack s s.file
  rw [openDecode_of_accepted ha hio, ← hnpix, ← hbpp]
  exact exists_rounds_past_chunks (beginTransfer_transfer s _) rfl hcode (hbpp ▸ hcs) (hn.trans hnpix.ge) hd

end Accepted

/-! ### The obligations -/

/-- Settles O52, test by test; in an RLE payload, by the round that comes after the whole chunks. -/
theorem decodeTestsInOrder : Obligations.DecodeTestsInOrder := by
  intro s
  refine ⟨fun hio => ?_, fun hio hl => ?_, fun hio hl hf => ?_, fun hio hl hf hd => ?_, fun hio hl hf hw hh hc => ?_,
    decodeFails_of_badCode, decodeFails_of_shortRaw, fun hio ha hcode cs rest hcs hn hd => ?_⟩
  · exact decodeFails_of_openDecode (openDecode_of_ioFail hio)
  · exact decodeFails_of_openDecode (openDecode_of_shortHeader hio hl)
  · exact decodeFails_of_openDecode (openDecode_of_error hio hl (headerStatus_of_badFormat hf) nofun)
  · exact decodeFails_of_openDecode (openDecode_of_error hio hl (headerStatus_of_badSize hf hd) nofun)
  · exact decodeFails_of_openDecode (openDecode_of_error hio hl (headerStatus_of_tooLarge hf hw hh hc) nofun)
  · obtain ⟨a, t, hrounds, ht, hp, hcount, hnpix, hbpp, hrest⟩ := exists_rounds_to_chunk hio ha hcode hcs hn.le hd
    have hc : t.count < npix a := by rwa [hcount, hnpix]
    have fails : ∀ {e u}, transferRound t a = .next (raise .image e u) → DecodeFails s e := fun hr =>
      decodeFails_of_rounds rfl (rounds_trans hrounds (rounds_single ht hr))
    refine ⟨fun hnil => ?_, fun h tail hcons => ⟨fun hover => ?_, fun hfit hshort => ?_⟩⟩
    · exact fails (transferRound_of_missingHeader hp hc (List.drop_eq_nil_iff.1 (hrest.trans hnil)))
    · obtain ⟨u, hr⟩ := transferRound_of_overrun hp hc (hrest.trans hcons) (by rwa [hcount, hnpix])
      exact fails hr
    · have hlen : a.file.length - t.pos = rest.length := by rw [← List.length_drop, hrest]
      obtain ⟨u, hr⟩ := transferRound_of_shortChunk hp hc (hrest.trans hcons) (by rwa [hcount, hnpix])
        (by rw [hbpp]; omega)
      exact fails hr

/-- R150: the opening and the rounds of a DECODE touch the slot only. -/
theorem execDecode_slotChange {s t : State} (hx : execDecode s = .next t) : SlotChange s t := by
  obtain ⟨u, hu, hrounds, -⟩ := execDecode_answers s
  cases hx.symm.trans hu
  exact hrounds.keeps (fun _ _ _ _ hr h => h.trans (transferRound_slotChange hr)) (openDecode_slotChange s)

/-- Settles O55: DECODE touches the slot only, and each way to end commits with `OK` or clears `VALID`. -/
theorem decodeOutcome : Obligations.DecodeOutcome := by
  intro s
  obtain ⟨t, hx, hrounds, hend⟩ := execDecode_answers s
  have hcommit : CommitsWithOk t :=
    hrounds.keeps (fun _ _ _ _ hr _ => transferRound_commitsWithOk hr) (openDecode_commitsWithOk s)
  obtain ⟨v, w, h, f, m, e, u, d⟩ := execDecode_slotChange hx
  cases hend
  exact ⟨v, w, h, f, m, e, d, hx, hcommit rfl⟩

end Sys2Proof.Proofs
end

