-- ==== Sys2Proof/Proofs/DecodeRuns.lean ====
section
/-!
PROOFS. Two DECODEs side by side: of one file in two states of the block (R156), and of a file with and without bytes
after its payload (R147). The layers, in order: what a round comes to, which the geometry and the stream alone decide;
the stream with bytes after it; two states in step.
-/

namespace Sys2Proof.Proofs

open Sys2Proof Sys2Proof.Machine Sys2Proof.Safety Sys2Proof.Laws

/-! ### What a round comes to -/

/-- What a round of a DECODE comes to, apart from the state it is taken in. -/
inductive RoundAnswer where
  | fail (e : Status)
  | finish (t : Transfer)
  /-- The bytes `bs` are stored from offset `a` on, and the DECODE goes on with the locals `u`. -/
  | store (a : Nat) (bs : List Byte) (u : Transfer)

/-- The state it leads to. -/
def RoundAnswer.apply (s : State) : RoundAnswer → State
  | .fail e => raise .image e s
  | .finish t => finishDecode t s
  | .store a bs u => { s with buf := writeBytes s.buf a bs, transfer := some u }

/-- All that a round looks at in `a` is so in `b`, where the stream may go on with the bytes `extra`. -/
structure SeesSame (extra : List Byte) (a b : State) : Prop where
  width : b.width = a.width
  height : b.height = a.height
  format : b.format = a.format
  file : b.file = a.file ++ extra

/-- In every state in which a round sees the same as in `a`, the operation `f` comes to the answer `r`; bytes after the
stream are no matter unless `r` is an error. -/
def Foretells (a : State) (f : State → Outcome) (r : RoundAnswer) : Prop :=
  ∀ extra b, SeesSame extra a b → (extra = [] ∨ ∀ e, r ≠ .fail e) → f b = .next (r.apply b)

section SeesSame

variable {extra : List Byte} {a b : State} (h : SeesSame extra a b)
include h

theorem SeesSame.bpp_eq : bpp b = bpp a := by
  obtain ⟨hbpp, -⟩ := derived_congr h.width h.height h.format
  exact hbpp

theorem SeesSame.npix_eq : npix b = npix a := by
  obtain ⟨-, -, -, -, -, hnpix, -⟩ := derived_congr h.width h.height h.format
  exact hnpix

theorem SeesSame.len_eq : len b = len a := by rw [len_eq_pixels, len_eq_pixels, h.npix_eq, h.bpp_eq]

theorem SeesSame.flipRows_eq (hbuf : b.buf = a.buf) : flipRows b = flipRows a := by
  obtain ⟨-, -, hheight, hbpr, hlen, -⟩ := derived_congr h.width h.height h.format
  rw [flipRows, flipRows, flippedBytes, flippedBytes, hbuf, hheight, hbpr, hlen]

theorem SeesSame.inRead_eq_some {pos n : Nat} {bs : List Byte} (hr : inRead a.file pos n = some bs) :
    inRead b.file pos n = some bs := by
  rw [h.file]
  exact inRead_append hr extra

/-- Where the answer is an error the stream is the very same. -/
theorem SeesSame.file_eq_of_fail {e : Status} (hx : extra = [] ∨ ∀ e', RoundAnswer.fail e ≠ .fail e') :
    b.file = a.file := by
  rw [h.file, hx.resolve_right fun hne => hne e rfl, List.append_nil]

end SeesSame

theorem seesSame_append (s : State) (extra : List Byte) : SeesSame extra s { s with file := s.file ++ extra } :=
  ⟨rfl, rfl, rfl, rfl⟩

theorem seesSame_refl (s : State) : SeesSame [] s s := ⟨rfl, rfl, rfl, (List.append_nil _).symm⟩

/-- R139, R146. -/
theorem exists_foretells_rawPayload (t : Transfer) (a : State) :
    ∃ r, Foretells a (fun s => .next (rawPayload t s)) r := by
  rcases rawPayload_cases t a with ⟨hl, -⟩ | ⟨bs, hr, -⟩
  · refine ⟨.fail .ioError, fun extra b h hx => congrArg Host.Outcome.next (rawPayload_of_short ?_)⟩
    rwa [h.file_eq_of_fail hx, h.len_eq]
  · refine ⟨.store 0 bs { t with pos := t.pos + len a, phase := .finished },
      fun extra b h _ => congrArg Host.Outcome.next ?_⟩
    rw [rawPayload, h.len_eq, h.inRead_eq_some hr]
    rfl

/-- R142, R143, R146. -/
theorem exists_foretells_litChunk (n : Nat) (t : Transfer) (a : State) :
    ∃ r, Foretells a (fun s => .next (litChunk n t s)) r := by
  rcases litChunk_cases n t a with ⟨hn, -⟩ | ⟨hn, hl, -⟩ | ⟨hn, bs, hr, -⟩
  · exact ⟨.fail .overrunError, fun extra b h _ => congrArg Host.Outcome.next (if_pos (by rwa [h.npix_eq]))⟩
  · refine ⟨.fail .ioError, fun extra b h hx => congrArg Host.Outcome.next ?_⟩
    rw [litChunk, h.npix_eq, if_neg hn.not_gt, h.bpp_eq, h.file_eq_of_fail hx, inRead_eq_none.2 hl]
    rfl
  · refine ⟨.store (t.count * bpp a) bs { t with pos := t.pos + n * bpp a, count := t.count + n },
      fun extra b h _ => congrArg Host.Outcome.next ?_⟩
    rw [litChunk, h.npix_eq, if_neg hn.not_gt, h.bpp_eq, h.inRead_eq_some hr]
    rfl

/-- R142, R144, R146. -/
theorem exists_foretells_repChunk (n : Nat) (t : Transfer) (a : State) :
    ∃ r, Foretells a (fun s => .next (repChunk n t s)) r := by
  rcases repChunk_cases n t a with ⟨hn, -⟩ | ⟨hn, hl, -⟩ | ⟨hn, p, hr, -⟩
  · exact ⟨.fail .overrunError, fun extra b h _ => congrArg Host.Outcome.next (if_pos (by rwa [h.npix_eq]))⟩
  · refine ⟨.fail .ioError, fun extra b h hx => congrArg Host.Outcome.next ?_⟩
    rw [repChunk, h.npix_eq, if_neg hn.not_gt, h.bpp_eq, h.file_eq_of_fail hx, inRead_eq_none.2 hl]
    rfl
  · refine ⟨.store (t.count * bpp a) (List.replicate n p).flatten
      { t with pos := t.pos + bpp a, count := t.count + n }, fun extra b h _ => congrArg Host.Outcome.next ?_⟩
    rw [repChunk, h.npix_eq, if_neg hn.not_gt, h.bpp_eq, h.inRead_eq_some hr]
    rfl

/-- R141: any byte is the header of the one or the other. -/
theorem exists_foretells_decodeChunk (x : Byte) (t : Transfer) (a : State) :
    ∃ r, Foretells a (fun s => exec (decodeChunk x) { s with transfer := some t }) r := by
  obtain ⟨n, -, -, hi | hi⟩ := decodeChunk_cases x <;> rw [hi]
  · exact exists_foretells_litChunk n t a
  · exact exists_foretells_repChunk n t a

/-- R138: the round of the dispatch. -/
theorem exists_foretells_dispatch {t : Transfer} (hp : t.phase = .dataType) (a : State) :
    ∃ r, Foretells a (transferRound t) r := by
  by_cases hraw : t.header.dataType.toNat = 2 ∨ t.header.dataType.toNat = 3
  · obtain ⟨r, hr⟩ := exists_foretells_rawPayload t a
    exact ⟨r, fun extra b h hx => (transferRound_of_rawCode hp hraw).trans (hr extra b h hx)⟩
  by_cases hrle : t.header.dataType.toNat = 10 ∨ t.header.dataType.toNat = 11
  · exact ⟨.store 0 [] (enterLoop t), fun _ _ _ _ => transferRound_of_rleCode hp hrle⟩
  · have hbad : t.header.dataType.toNat ∉ [2, 3, 10, 11] := by
      simp only [List.mem_cons, List.not_mem_nil, or_false]
      omega
    exact ⟨.fail .unsupportedDataType, fun _ _ _ _ => transferRound_of_badCode hp hbad⟩

/-- R140: a round of the chunk loop, while pixels are missing. -/
theorem exists_foretells_chunkLoop {t : Transfer} (hp : t.phase = .chunks) {a : State} (hc : t.count < npix a) :
    ∃ r, Foretells a (transferRound t) r := by
  cases hd : a.file.drop t.pos with
  | nil =>
    refine ⟨.fail .ioError, fun extra b h hx => transferRound_of_missingHeader hp (h.npix_eq ▸ hc) ?_⟩
    rw [h.file_eq_of_fail hx]
    exact List.drop_eq_nil_iff.1 hd
  | cons x rest =>
    obtain ⟨r, hr⟩ := exists_foretells_decodeChunk x { t with pos := t.pos + 1 } a
    refine ⟨r, fun extra b h hx => ?_⟩
    have hdb : b.file.drop t.pos = x :: (rest ++ extra) := by
      rw [h.file, List.drop_append_of_le_length (lt_length_of_drop_eq_cons hd).le, hd, List.cons_append]
    exact (transferRound_of_chunk hp (h.npix_eq ▸ hc) hdb).trans (hr extra b h hx)

/-- The locals, the geometry and the stream decide what a round comes to (R138 to R146). -/
theorem exists_foretells_transferRound (t : Transfer) (a : State) : ∃ r, Foretells a (transferRound t) r := by
  cases hp : t.phase with
  | dataType => exact exists_foretells_dispatch hp a
  | chunks =>
    rcases Nat.lt_or_ge t.count (npix a) with hc | hc
    · exact exists_foretells_chunkLoop hp hc
    · exact ⟨.finish t, fun _ b h _ => transferRound_of_full hp (h.npix_eq ▸ hc)⟩
  | finished => exact ⟨.finish t, fun _ b _ _ => by simp only [transferRound, fetchStream, hp]; rfl⟩

/-! ### The stream with bytes after it -/

/-- The state with more bytes at the end of its stream. -/
def appendFile (extra : List Byte) (s : State) : State := { s with file := s.file ++ extra }

/-- A round raises no error `OK`. -/
theorem ne_ok_of_round_raise {s : State} {t : Transfer} {e : Status}
    (hr : transferRound t s = .next (raise .image e s)) : e ≠ .ok :=
  fun he => Bool.false_ne_true ((transferRound_commitsWithOk hr rfl).1 he)

/-- A DECODE that raised an error is over, with that error. -/
theorem not_ok_of_rounds_raise {e : Status} {s t : State} (he : e ≠ .ok) (h : Rounds (raise .image e s) t)
    (ht : t.transfer = none) : t.status ≠ .ok := by
  rw [← rounds_unique (.refl _) h (raise_image_transfer s e) ht]
  exact he

/-- R147: the rounds that lead to success are the same rounds if bytes follow the payload. -/
theorem rounds_appendFile {s t : State} (h : Rounds s t) (ht : t.transfer = none) (hok : t.status = .ok)
    (extra : List Byte) : Rounds (appendFile extra s) (appendFile extra t) := by
  induction h with
  | refl s => exact .refl _
  | @head s s' _ u hu hr rest ih =>
    obtain ⟨r, hfore⟩ := exists_foretells_transferRound u s
    cases hr.symm.trans (hfore [] s (seesSame_refl s) (.inl rfl))
    have ih := ih ht hok
    cases r with
    | fail e =>
      exact absurd hok (not_ok_of_rounds_raise (ne_ok_of_round_raise hr) rest ht)
    | finish v => exact .head hu (hfore extra _ (seesSame_append s extra) (.inr nofun)) ih
    | store a bs v => exact .head hu (hfore extra _ (seesSame_append s extra) (.inr nofun)) ih

/-- R132 to R137: a header that passes its tests passes them if bytes follow. -/
theorem openDecode_appendFile {s : State} (extra : List Byte) (hio : s.ioFail = false) (hl : 18 ≤ s.file.length)
    (hs : headerStatus s.cfg (hdrUnpack (s.file.take 18)) = .ok) :
    openDecode (appendFile extra s) = beginTransfer (hdrUnpack (s.file.take 18)) (appendFile extra s) := by
  have hread : inRead (s.file ++ extra) 0 hdrLen = some (s.file.take 18) :=
    inRead_append (inRead_eq_some.2 ⟨by rw [Nat.zero_add]; exact hl, rfl⟩) extra
  simp [openDecode, appendFile, hio, hread, hs]

/-- Settles O57: the rounds of the file alone are rounds of the file with the bytes after it. -/
theorem trailingBytesIgnored : Obligations.TrailingBytesIgnored := by
  intro s t extra hx hok
  obtain ⟨u, hu, hrounds, hend⟩ := execDecode_answers s
  cases hx.symm.trans hu
  have hx' : execDecode (appendFile extra s) = .next (appendFile extra t) := by
    rcases openDecode_cases s with ⟨e, he, ho⟩ | ⟨hio, hl, hs, ho⟩ <;> rw [ho] at hrounds
    · exact absurd hok (not_ok_of_rounds_raise he hrounds hend)
    · exact execDecode_of_rounds (openDecode_appendFile extra hio hl hs) (rounds_appendFile hrounds hend hok extra) hend
  cases execDecode_slotChange hx
  exact hx'

/-! ### Two states in step -/

/-- Two DECODEs in step: under way with the same locals, slot and stream, or over with the same outcome. -/
inductive InStep (a b : State) : Prop where
  | running {t : Transfer} (ha : a.transfer = some t) (hb : b.transfer = some t) (hsee : SeesSame [] a b)
    (hbuf : b.buf = a.buf)
  | ended (ha : a.transfer = none) (hb : b.transfer = none) (hstatus : a.status = b.status) (hvalid : a.valid = b.valid)
    (hslot : a.status = .ok → a.width = b.width ∧ a.height = b.height ∧ a.format = b.format ∧ a.buf = b.buf)

theorem inStep_raise_image {e : Status} (he : e ≠ .ok) (a b : State) :
    InStep (raise .image e a) (raise .image e b) :=
  .ended rfl rfl rfl rfl fun h => absurd h he

/-- R137: DECODEs of one header begin in step. -/
theorem inStep_beginTransfer (h : Header) {a b : State} (hfile : a.file = b.file) :
    InStep (beginTransfer h a) (beginTransfer h b) :=
  .running rfl rfl ⟨rfl, rfl, rfl, by rw [List.append_nil]; exact hfile.symm⟩ rfl

/-- R148, R149: DECODEs in step end with the same image. -/
theorem inStep_finishDecode (t : Transfer) {a b : State} (h : SeesSame [] a b) (hbuf : b.buf = a.buf) :
    InStep (finishDecode t a) (finishDecode t b) := by
  refine .ended rfl rfl rfl rfl fun _ => ⟨h.width.symm, h.height.symm, h.format.symm, ?_⟩
  rw [finishDecode_buf, finishDecode_buf, h.flipRows_eq hbuf, hbuf]

/-- A round keeps two DECODEs in step. -/
theorem InStep.round {a a' b : State} {t : Transfer} (h : InStep a b) (ht : a.transfer = some t)
    (hr : transferRound t a = .next a') :
    ∃ b', b.transfer = some t ∧ transferRound t b = .next b' ∧ InStep a' b' := by
  cases h with
  | ended ha => cases ha.symm.trans ht
  | running ha hb hsee hbuf =>
    cases ha.symm.trans ht
    obtain ⟨r, hfore⟩ := exists_foretells_transferRound t a
    refine ⟨_, hb, hfore [] b hsee (.inl rfl), ?_⟩
    cases hr.symm.trans (hfore [] a (seesSame_refl a) (.inl rfl))
    cases r with
    | fail e => exact inStep_raise_image (ne_ok_of_round_raise hr) a b
    | finish u => exact inStep_finishDecode u hsee hbuf
    | store o bs u =>
      exact .running rfl rfl ⟨hsee.width, hsee.height, hsee.format, hsee.file⟩ (congrArg (writeBytes · o bs) hbuf)

theorem InStep.rounds {a a' b : State} (h : InStep a b) (hr : Rounds a a') : ∃ b', Rounds b b' ∧ InStep a' b' := by
  induction hr generalizing b with
  | refl => exact ⟨b, .refl b, h⟩
  | head ht hround _ ih =>
    obtain ⟨b', hb, hround', h'⟩ := h.round ht hround
    obtain ⟨b'', hrounds, h''⟩ := ih h'
    exact ⟨b'', .head hb hround' hrounds, h''⟩

/-- R130 to R137: the tests before the dispatch read the file, `io_fail` and `BUF_CAP` only. -/
theorem inStep_openDecode {s u : State} (hcfg : s.cfg = u.cfg) (hfile : s.file = u.file) (hio : s.ioFail = u.ioFail) :
    InStep (openDecode s) (openDecode u) := by
  unfold openDecode
  rw [← hcfg, ← hfile, ← hio]
  split
  case isTrue => exact inStep_raise_image (e := .ioError) nofun s u
  case isFalse =>
    cases inRead s.file 0 hdrLen with
    | none => exact inStep_raise_image (e := .ioError) nofun s u
    | some hb =>
      by_cases hs : headerStatus s.cfg (hdrUnpack hb) = .ok
      · simp only [if_pos hs]
        exact inStep_beginTransfer _ hfile
      · simp only [if_neg hs]
        exact inStep_raise_image hs s u

/-- Settles O56: the two openings are in step, and rounds keep them so to the end. -/
theorem decodeDependsOnFileOnly : Obligations.DecodeDependsOnFileOnly := by
  intro s u hcfg hfile hio
  obtain ⟨s', hx, hrounds, hend⟩ := execDecode_answers s
  obtain ⟨u', hrounds', hstep⟩ := (inStep_openDecode hcfg hfile hio).rounds hrounds
  cases hstep with
  | running ha => cases hend.symm.trans ha
  | ended _ hb hstatus hvalid hslot =>
    exact ⟨s', u', hx, execDecode_of_rounds rfl hrounds' hb, hstatus, hvalid, hslot⟩

end Sys2Proof.Proofs
end

