-- ==== Sys2Proof/Proofs/Exceptions.lean ====
section
/-!
PROOFS. The exceptions (60_exceptions.md): the codes of `STATUS`, the issue of an unassigned code, and that no step of the
machine faults or is refused. The last is put together from the answers of the commands and of the rounds of a DECODE.
-/

namespace Sys2Proof.Proofs

open Sys2Proof Sys2Proof.Machine Sys2Proof.Safety Sys2Proof.Laws

/-- Settles O12, by the table of codes. -/
theorem statusCodesAreTheTables : Obligations.StatusCodesAreTheTables := rfl

/-! ### An unassigned code -/

/-- R71, R73: the command port rejects the codes other than 0x01 to 0x07. -/
theorem decodeCommand_of_unassigned {code : Byte} (hcode : code.toNat = 0 ∨ 8 ≤ code.toNat) (a0 a1 a2 : Word) :
    decodeCommand code a0 a1 a2 = .reject (.illegalCommand code) := by
  rcases decodeCommand_cases code a0 a1 a2 with ⟨rfl, -⟩ | ⟨rfl, -⟩ | ⟨rfl, -⟩ | ⟨rfl, -⟩ | ⟨rfl, -⟩ | ⟨rfl, -⟩ |
    ⟨rfl, -⟩ | ⟨-, he⟩
  case inr.inr.inr.inr.inr.inr.inr => exact he
  all_goals exact absurd hcode (by decide)

/-- R169: with an issue pending whose code the port rejects, a step sets `STATUS` to `IllegalCommand`. -/
theorem step_of_reject {s : State} {code : Byte} {file : List Byte} {ioFail : Bool} {rest : List HostMove}
    {err : DecodeError} (hr : AtRest s) (hm : s.script = .issue code file ioFail :: rest)
    (hd : decodeCommand code s.arg0 s.arg1 s.arg2 = .reject err) :
    step s = .next { s with script := rest, cmd := code, status := .illegalCommand, file := [], ioFail := false } := by
  simp only [step_of_move hr hm, hostMove, decode, hd]
  rfl

/-- Settles O5: the port rejects the code. -/
theorem unassignedCodeSetsStatus : Obligations.UnassignedCodeSetsStatus :=
  fun _ _ _ _ _ hr hm hcode => ⟨step_of_reject hr hm (decodeCommand_of_unassigned hcode _ _ _), rfl⟩

/-! ### Every step answers -/

/-- Every command of the port answers a next state, with `OK` or with an error in `STATUS` (R157, R172). -/
theorem exec_answers {i : Instr} (hi : placeOf (encode i) = .command) (s : State) : ∃ t, exec i s = .next t := by
  cases i with
  | new w h f => rcases execNew_cases w h f s with ⟨-, he⟩ | ⟨-, he⟩ <;> exact ⟨_, he⟩
  | get x y => rcases execGet_cases x y s with ⟨-, he⟩ | ⟨-, he⟩ <;> exact ⟨_, he⟩
  | set x y c => rcases execSet_cases x y c s with ⟨-, -, he⟩ | ⟨-, -, he⟩ | ⟨-, he⟩ <;> exact ⟨_, he⟩
  | clear => rcases execClear_cases s with ⟨-, he⟩ | ⟨-, he⟩ <;> exact ⟨_, he⟩
  | flip => rcases execFlip_cases s with ⟨-, he⟩ | ⟨-, he⟩ <;> exact ⟨_, he⟩
  | encode rle => rcases execEncode_cases rle s with ⟨-, he⟩ | ⟨-, he⟩ <;> exact ⟨_, he⟩
  | decode =>
    obtain ⟨t, he, -⟩ := execDecode_answers s
    exact ⟨t, he⟩
  | _ => exact nomatch hi

/-- A step with an issue pending answers: the port rejects the code, or decodes it to one of its commands. -/
theorem step_answers_of_issue {s : State} {code : Byte} {file : List Byte} {ioFail : Bool} {rest : List HostMove}
    (hr : AtRest s) (hm : s.script = .issue code file ioFail :: rest) : ∃ t, step s = .next t := by
  cases hd : decodeCommand code s.arg0 s.arg1 s.arg2 with
  | reject err => exact ⟨_, step_of_reject hr hm hd⟩
  | instr i =>
    obtain ⟨hplace, -⟩ := encode_of_decodeCommand hd
    obtain ⟨t, ht⟩ := exec_answers hplace (latch code file ioFail { s with script := rest })
    exact ⟨settle t, by rw [step_of_issue hr hm hd, ht, mapNext_next]⟩

/-- A step between commands answers, whatever the host's next move. -/
theorem step_answers_of_atRest {s : State} (hr : AtRest s) : ∃ t, step s = .next t := by
  cases hm : s.script with
  | nil => exact ⟨s, step_of_idle hr hm⟩
  | cons m rest =>
    cases m with
    | issue code file ioFail => exact step_answers_of_issue hr hm
    | _ => exact ⟨_, step_of_move hr hm⟩

/-- Settles O16: a DECODE in progress takes a round, and rounds answer; else the host makes its move. -/
theorem stepAlwaysAnswers : Obligations.StepAlwaysAnswers := by
  intro s
  cases ht : s.transfer with
  | none => exact step_answers_of_atRest ht
  | some t =>
    obtain ⟨s', hround, -⟩ := transferRound_answers t s ht
    exact ⟨settle s', by rw [step_of_transfer ht, hround, mapNext_next]⟩

end Sys2Proof.Proofs
end
